-- ==== Sys2Proof/Word.lean ====
section
/-! DEFINITION. The sizes of values the spec gives the machine (00_scope.md R5, R8): bytes, 16-bit words, 12-bit
addresses, register indices and key codes. Every quantity is unsigned (R8). -/

namespace Sys2Proof

/-- A register, timer or memory cell: 8 bits (R5). -/
abbrev Byte := BitVec 8

/-- An instruction word, `I`, `pc` or a return address: 16 bits (R5). -/
abbrev Word := BitVec 16

/-- The `nnn` field: 12 bits (30_encoding.md R92). -/
abbrev Addr12 := BitVec 12

/-- A register index taken from a 4-bit field, always 0..15 (10_state.md R23). -/
abbrev RegIdx := Fin 16

/-- A key code of a key-press event, 0..15 (46_external_interfaces.md R236). -/
abbrev KeyCode := Fin 16

end Sys2Proof
end

