-- ==== Sys2Proof/Syntax.lean ====
section
/-! DEFINITION. The 34 instructions of 30_encoding.md R97, one constructor each, in the table's order. Operands have the
widths of their fields (R92, R94), so every term of this type is an instruction the encoding can spell. -/

namespace Sys2Proof

/-- One instruction of the opcode map (30_encoding.md R97). The pattern stands beside each constructor. -/
inductive Instr where
  /-- `00E0` -/
  | cls
  /-- `00EE` -/
  | ret
  /-- `1nnn` -/
  | jp (nnn : Addr12)
  /-- `2nnn` -/
  | call (nnn : Addr12)
  /-- `3xkk` -/
  | seImm (x : RegIdx) (kk : Byte)
  /-- `4xkk` -/
  | sneImm (x : RegIdx) (kk : Byte)
  /-- `5xy0` -/
  | seReg (x y : RegIdx)
  /-- `6xkk` -/
  | ldImm (x : RegIdx) (kk : Byte)
  /-- `7xkk` -/
  | addImm (x : RegIdx) (kk : Byte)
  /-- `8xy0` -/
  | ldReg (x y : RegIdx)
  /-- `8xy1` -/
  | orReg (x y : RegIdx)
  /-- `8xy2` -/
  | andReg (x y : RegIdx)
  /-- `8xy3` -/
  | xorReg (x y : RegIdx)
  /-- `8xy4` -/
  | addReg (x y : RegIdx)
  /-- `8xy5` -/
  | subReg (x y : RegIdx)
  /-- `8xy6`; `y` is decoded and ignored (R100) -/
  | shr (x y : RegIdx)
  /-- `8xy7` -/
  | subnReg (x y : RegIdx)
  /-- `8xyE`; `y` is decoded and ignored (R100) -/
  | shl (x y : RegIdx)
  /-- `9xy0` -/
  | sneReg (x y : RegIdx)
  /-- `Annn` -/
  | ldI (nnn : Addr12)
  /-- `Bnnn` -/
  | jpV0 (nnn : Addr12)
  /-- `Cxkk` -/
  | rnd (x : RegIdx) (kk : Byte)
  /-- `Dxyn` -/
  | drw (x y : RegIdx) (n : Fin 16)
  /-- `Ex9E` -/
  | skp (x : RegIdx)
  /-- `ExA1` -/
  | sknp (x : RegIdx)
  /-- `Fx07` -/
  | ldVxDT (x : RegIdx)
  /-- `Fx0A` -/
  | ldVxK (x : RegIdx)
  /-- `Fx15` -/
  | ldDTVx (x : RegIdx)
  /-- `Fx18` -/
  | ldSTVx (x : RegIdx)
  /-- `Fx1E` -/
  | addI (x : RegIdx)
  /-- `Fx29` -/
  | ldF (x : RegIdx)
  /-- `Fx33` -/
  | ldB (x : RegIdx)
  /-- `Fx55` -/
  | stRegs (x : RegIdx)
  /-- `Fx65` -/
  | ldRegs (x : RegIdx)
  deriving DecidableEq, Repr

end Sys2Proof
end

