-- ==== Sys2Proof/Decode.lean ====
section
/-! DEFINITION. Decoding and encoding, written from 30_encoding.md R90 to R98. The decoder is a pure, total function of the
word (R101); a word that matches no pattern is rejected by name with the word itself (R98). -/

namespace Sys2Proof

/-- Why a sequence of bytes gives no instruction: fewer than the two bytes of a word (R90), or a word that matches no
pattern (R98). -/
inductive DecodeError where
  | truncated
  | unknownOpcode (w : Word)
  deriving DecidableEq, Repr

/-! The six fields of a word (R92). -/

/-- `op`, bits 15..12. -/
def opField (w : Word) : BitVec 4 := w.extractLsb' 12 4

/-- `x`, bits 11..8. -/
def xField (w : Word) : RegIdx := (w.extractLsb' 8 4).toFin

/-- `y`, bits 7..4. -/
def yField (w : Word) : RegIdx := (w.extractLsb' 4 4).toFin

/-- `n`, bits 3..0. -/
def nField (w : Word) : BitVec 4 := w.extractLsb' 0 4

/-- `kk`, bits 7..0. -/
def kkField (w : Word) : Byte := w.extractLsb' 0 8

/-- `nnn`, bits 11..0. -/
def nnnField (w : Word) : Addr12 := w.extractLsb' 0 12

/-- Class 8: secondary dispatch on `n` (R96). -/
def decodeClass8 (w : Word) : Except DecodeError Instr :=
  match nField w with
  | 0x0#4 => .ok (.ldReg (xField w) (yField w))
  | 0x1#4 => .ok (.orReg (xField w) (yField w))
  | 0x2#4 => .ok (.andReg (xField w) (yField w))
  | 0x3#4 => .ok (.xorReg (xField w) (yField w))
  | 0x4#4 => .ok (.addReg (xField w) (yField w))
  | 0x5#4 => .ok (.subReg (xField w) (yField w))
  | 0x6#4 => .ok (.shr (xField w) (yField w))
  | 0x7#4 => .ok (.subnReg (xField w) (yField w))
  | 0xE#4 => .ok (.shl (xField w) (yField w))
  | _ => .error (.unknownOpcode w)

/-- Class E: secondary dispatch on `kk` (R96). -/
def decodeClassE (w : Word) : Except DecodeError Instr :=
  match kkField w with
  | 0x9E#8 => .ok (.skp (xField w))
  | 0xA1#8 => .ok (.sknp (xField w))
  | _ => .error (.unknownOpcode w)

/-- Class F: secondary dispatch on `kk` (R96). -/
def decodeClassF (w : Word) : Except DecodeError Instr :=
  match kkField w with
  | 0x07#8 => .ok (.ldVxDT (xField w))
  | 0x0A#8 => .ok (.ldVxK (xField w))
  | 0x15#8 => .ok (.ldDTVx (xField w))
  | 0x18#8 => .ok (.ldSTVx (xField w))
  | 0x1E#8 => .ok (.addI (xField w))
  | 0x29#8 => .ok (.ldF (xField w))
  | 0x33#8 => .ok (.ldB (xField w))
  | 0x55#8 => .ok (.stRegs (xField w))
  | 0x65#8 => .ok (.ldRegs (xField w))
  | _ => .error (.unknownOpcode w)

/-- The decoder: primary dispatch on `op` (R95); class 0 compares the whole word, classes 5 and 9 need `n = 0` (R96).
The sixteen values of `op` are all listed; the last arm is there because Lean cannot see that. -/
def decodeWord (w : Word) : Except DecodeError Instr :=
  match opField w with
  | 0x0#4 =>
    if w = 0x00E0#16 then .ok .cls
    else if w = 0x00EE#16 then .ok .ret
    else .error (.unknownOpcode w)
  | 0x1#4 => .ok (.jp (nnnField w))
  | 0x2#4 => .ok (.call (nnnField w))
  | 0x3#4 => .ok (.seImm (xField w) (kkField w))
  | 0x4#4 => .ok (.sneImm (xField w) (kkField w))
  | 0x5#4 => if nField w = 0#4 then .ok (.seReg (xField w) (yField w)) else .error (.unknownOpcode w)
  | 0x6#4 => .ok (.ldImm (xField w) (kkField w))
  | 0x7#4 => .ok (.addImm (xField w) (kkField w))
  | 0x8#4 => decodeClass8 w
  | 0x9#4 => if nField w = 0#4 then .ok (.sneReg (xField w) (yField w)) else .error (.unknownOpcode w)
  | 0xA#4 => .ok (.ldI (nnnField w))
  | 0xB#4 => .ok (.jpV0 (nnnField w))
  | 0xC#4 => .ok (.rnd (xField w) (kkField w))
  | 0xD#4 => .ok (.drw (xField w) (yField w) (nField w).toFin)
  | 0xE#4 => decodeClassE w
  | 0xF#4 => decodeClassF w
  | _ => .error (.unknownOpcode w)

/-- The word made of two bytes, the one at the lower address in bits 15..8 (R90, 20_memory.md R66). -/
def wordOfBytes (hi lo : Byte) : Word := hi ++ lo

/-- The byte of a word that stands at the lower address: bits 15..8. -/
def hiByte (w : Word) : Byte := w.extractLsb' 8 8

/-- The byte of a word that stands at the higher address: bits 7..0. -/
def loByte (w : Word) : Byte := w.extractLsb' 0 8

/-- Decoding from bytes: an instruction and the bytes after it, or a rejection by name. -/
def decodeBytes : List Byte → Except DecodeError (Instr × List Byte)
  | hi :: lo :: rest =>
    match decodeWord (wordOfBytes hi lo) with
    | .ok i => .ok (i, rest)
    | .error e => .error e
  | _ => .error .truncated

/-! The encoder, from the formats of R93 and the opcode map of R97. -/

/-- Format NNN: `op : nnn`. -/
def packNNN (op : BitVec 4) (nnn : Addr12) : Word := op ++ nnn

/-- Format XKK, and X with the sub-opcode as `kk`: `op : x : kk`. -/
def packXKK (op : BitVec 4) (x : RegIdx) (kk : Byte) : Word := op ++ (BitVec.ofFin x : BitVec 4) ++ kk

/-- Formats XY and XYN: `op : x : y : n`. -/
def packXYN (op : BitVec 4) (x y : RegIdx) (n : BitVec 4) : Word :=
  op ++ (BitVec.ofFin x : BitVec 4) ++ (BitVec.ofFin y : BitVec 4) ++ n

/-- The word of an instruction (R93, R97). -/
def encode : Instr → Word
  | .cls => 0x00E0#16
  | .ret => 0x00EE#16
  | .jp nnn => packNNN 0x1#4 nnn
  | .call nnn => packNNN 0x2#4 nnn
  | .seImm x kk => packXKK 0x3#4 x kk
  | .sneImm x kk => packXKK 0x4#4 x kk
  | .seReg x y => packXYN 0x5#4 x y 0x0#4
  | .ldImm x kk => packXKK 0x6#4 x kk
  | .addImm x kk => packXKK 0x7#4 x kk
  | .ldReg x y => packXYN 0x8#4 x y 0x0#4
  | .orReg x y => packXYN 0x8#4 x y 0x1#4
  | .andReg x y => packXYN 0x8#4 x y 0x2#4
  | .xorReg x y => packXYN 0x8#4 x y 0x3#4
  | .addReg x y => packXYN 0x8#4 x y 0x4#4
  | .subReg x y => packXYN 0x8#4 x y 0x5#4
  | .shr x y => packXYN 0x8#4 x y 0x6#4
  | .subnReg x y => packXYN 0x8#4 x y 0x7#4
  | .shl x y => packXYN 0x8#4 x y 0xE#4
  | .sneReg x y => packXYN 0x9#4 x y 0x0#4
  | .ldI nnn => packNNN 0xA#4 nnn
  | .jpV0 nnn => packNNN 0xB#4 nnn
  | .rnd x kk => packXKK 0xC#4 x kk
  | .drw x y n => packXYN 0xD#4 x y (BitVec.ofFin n)
  | .skp x => packXKK 0xE#4 x 0x9E#8
  | .sknp x => packXKK 0xE#4 x 0xA1#8
  | .ldVxDT x => packXKK 0xF#4 x 0x07#8
  | .ldVxK x => packXKK 0xF#4 x 0x0A#8
  | .ldDTVx x => packXKK 0xF#4 x 0x15#8
  | .ldSTVx x => packXKK 0xF#4 x 0x18#8
  | .addI x => packXKK 0xF#4 x 0x1E#8
  | .ldF x => packXKK 0xF#4 x 0x29#8
  | .ldB x => packXKK 0xF#4 x 0x33#8
  | .stRegs x => packXKK 0xF#4 x 0x55#8
  | .ldRegs x => packXKK 0xF#4 x 0x65#8

/-- The two bytes of an instruction as memory holds them, lower address first (R90). -/
def encodeBytes (i : Instr) : List Byte := [hiByte (encode i), loByte (encode i)]

/-! The match and mask columns of the opcode map (R97), kept apart from the decoder so that each can be held against the
other. -/

/-- One row of R97: a word `w` selects it when `w &&& mask = pattern` (R96). -/
structure OpRow where
  mnemonic : String
  pattern : Word
  mask : Word
  deriving DecidableEq, Repr

/-- The row of R97 that an instruction belongs to. -/
def rowOf : Instr → OpRow
  | .cls => ⟨"CLS", 0x00E0, 0xFFFF⟩
  | .ret => ⟨"RET", 0x00EE, 0xFFFF⟩
  | .jp _ => ⟨"JP_nnn", 0x1000, 0xF000⟩
  | .call _ => ⟨"CALL_nnn", 0x2000, 0xF000⟩
  | .seImm _ _ => ⟨"SE_Vx__kk", 0x3000, 0xF000⟩
  | .sneImm _ _ => ⟨"SNE_Vx__kk", 0x4000, 0xF000⟩
  | .seReg _ _ => ⟨"SE_Vx__Vy", 0x5000, 0xF00F⟩
  | .ldImm _ _ => ⟨"LD_Vx__kk", 0x6000, 0xF000⟩
  | .addImm _ _ => ⟨"ADD_Vx__kk", 0x7000, 0xF000⟩
  | .ldReg _ _ => ⟨"LD_Vx__Vy", 0x8000, 0xF00F⟩
  | .orReg _ _ => ⟨"OR_Vx__Vy", 0x8001, 0xF00F⟩
  | .andReg _ _ => ⟨"AND_Vx__Vy", 0x8002, 0xF00F⟩
  | .xorReg _ _ => ⟨"XOR_Vx__Vy", 0x8003, 0xF00F⟩
  | .addReg _ _ => ⟨"ADD_Vx__Vy", 0x8004, 0xF00F⟩
  | .subReg _ _ => ⟨"SUB_Vx__Vy", 0x8005, 0xF00F⟩
  | .shr _ _ => ⟨"SHR_Vx", 0x8006, 0xF00F⟩
  | .subnReg _ _ => ⟨"SUBN_Vx__Vy", 0x8007, 0xF00F⟩
  | .shl _ _ => ⟨"SHL_Vx", 0x800E, 0xF00F⟩
  | .sneReg _ _ => ⟨"SNE_Vx__Vy", 0x9000, 0xF00F⟩
  | .ldI _ => ⟨"LD_I__nnn", 0xA000, 0xF000⟩
  | .jpV0 _ => ⟨"JP_V0__nnn", 0xB000, 0xF000⟩
  | .rnd _ _ => ⟨"RND_Vx__kk", 0xC000, 0xF000⟩
  | .drw _ _ _ => ⟨"DRW_Vx__Vy__n", 0xD000, 0xF000⟩
  | .skp _ => ⟨"SKP_Vx", 0xE09E, 0xF0FF⟩
  | .sknp _ => ⟨"SKNP_Vx", 0xE0A1, 0xF0FF⟩
  | .ldVxDT _ => ⟨"LD_Vx__DT", 0xF007, 0xF0FF⟩
  | .ldVxK _ => ⟨"LD_Vx__K", 0xF00A, 0xF0FF⟩
  | .ldDTVx _ => ⟨"LD_DT__Vx", 0xF015, 0xF0FF⟩
  | .ldSTVx _ => ⟨"LD_ST__Vx", 0xF018, 0xF0FF⟩
  | .addI _ => ⟨"ADD_I__Vx", 0xF01E, 0xF0FF⟩
  | .ldF _ => ⟨"LD_F__Vx", 0xF029, 0xF0FF⟩
  | .ldB _ => ⟨"LD_B__Vx", 0xF033, 0xF0FF⟩
  | .stRegs _ => ⟨"LD__I___Vx", 0xF055, 0xF0FF⟩
  | .ldRegs _ => ⟨"LD_Vx___I", 0xF065, 0xF0FF⟩

/-- One instruction of each row, its operands zero, in the order of R97. -/
def oneOfEachRow : List Instr :=
  [.cls, .ret, .jp 0, .call 0, .seImm 0 0, .sneImm 0 0, .seReg 0 0, .ldImm 0 0, .addImm 0 0, .ldReg 0 0, .orReg 0 0,
   .andReg 0 0, .xorReg 0 0, .addReg 0 0, .subReg 0 0, .shr 0 0, .subnReg 0 0, .shl 0 0, .sneReg 0 0, .ldI 0, .jpV0 0,
   .rnd 0 0, .drw 0 0 0, .skp 0, .sknp 0, .ldVxDT 0, .ldVxK 0, .ldDTVx 0, .ldSTVx 0, .addI 0, .ldF 0, .ldB 0,
   .stRegs 0, .ldRegs 0]

/-- The opcode map of R97: 34 rows. -/
def opcodeTable : List OpRow := oneOfEachRow.map rowOf

/-- A word selects a row when it agrees with the pattern in every fixed digit (R96). -/
def OpRow.selects (r : OpRow) (w : Word) : Prop := w &&& r.mask = r.pattern

/-- The instruction the decoder reads from an instruction whose bits are `w`, numbered as spec/opcode_table.json numbers
them: the one word's bit 0 is its least significant bit, so the byte at the lower address is bits 15..8 (R90). Bits at
`nbits` and above are 0. -/
def decodeTableWord (nbits w : Nat) : Option Instr :=
  let word : Word := BitVec.ofNat 16 (w % 2 ^ nbits)
  match decodeBytes [hiByte word, loByte word] with
  | .ok (i, _) => some i
  | .error _ => none

end Sys2Proof
end

