-- ==== Sys2Proof/Config.lean ====
section
/-! DEFINITION. The implementation parameters the spec leaves open (00_scope.md R6), what the environment supplies to one
tick (40_engine_cycle.md R131), and the free values: constants with no body, so that no proof can see what they are. -/

namespace Sys2Proof

/-- The parameters of 00_scope.md R6, fixed from reset to reset (10_state.md R20, R41). State carries one such record and
no step changes it (log 6). -/
structure Config where
  /-- `SPEED`, the number of ticks in a frame; 0 is allowed (92_eei_decisions.md D15). -/
  speed : Nat
  /-- `STACK_DEPTH`: `none` is the unbounded stack, the default (10_state.md R36). -/
  stackDepth : Option Nat
  /-- `FONT`, the 80 bytes placed at 0x000..0x04F at reset (20_memory.md R64). -/
  font : Vector Byte 80
  /-- `AUDIO_FREQ_HZ`, the argument of `play` (46_external_interfaces.md R237). -/
  audioFreqHz : Nat
  deriving DecidableEq, Repr

/-- What the surroundings supply for one tick (40_engine_cycle.md R131), under no law of the spec. -/
structure TickInput where
  /-- The key-press events that arrive before the tick, in the order delivered (R122, 46 R236). -/
  keyPresses : List KeyCode
  /-- The level of each key 0..15 during the tick (46_external_interfaces.md R235). -/
  keysDown : Vector Bool 16
  /-- The keypad's answer to a code above 15, an unconstrained draw (46_external_interfaces.md R235). -/
  replyAbove15 : Bool
  /-- The byte the random source answers (46_external_interfaces.md R238). -/
  randomByte : Byte
  deriving DecidableEq, Repr, Inhabited

/-- FREE VALUE (log 2). The input of the n-th tick where State's script of inputs has run out. -/
opaque Config.anyTickInput : Nat → TickInput

/-- FREE VALUE (log 4). Row r of the display before anything was drawn (46_external_interfaces.md R233). -/
opaque Config.anyDisplayRow : Nat → BitVec 64

/-- FREE VALUE (log 5). The tone level before the first frame end (70_reset_and_hazards.md R302). -/
opaque Config.anyTone : Bool

/-- FREE VALUE (log 6). `SPEED` of the configuration that State.reset names (92_eei_decisions.md D15). -/
opaque Config.anySpeed : Nat

/-- FREE VALUE (log 6). `AUDIO_FREQ_HZ` of the configuration that State.reset names (92_eei_decisions.md D16). -/
opaque Config.anyAudioFreqHz : Nat

end Sys2Proof
end

