-- ==== Sys2Proof/Machine/ResetValues.lean ====
section
/-! DEFINITION. The constants of the memory map and of reset: sizes (00_scope.md R5), the reset vector (70 R301) and the
default font the spec offers (20_memory.md R64). -/

namespace Sys2Proof.Machine

/-- Memory has 4096 addressable bytes (20_memory.md R60). -/
def memSize : Nat := 4096

/-- The fixed reset vector and program load address (70_reset_and_hazards.md R301, 46_external_interfaces.md R240). -/
def resetVector : Nat := 0x200

/-- The font occupies 0x000..0x04F (20_memory.md R63). -/
def fontSize : Nat := 80

/-- PRESUMED (log 6): the default offered for `FONT`, which the spec itself marks as general knowledge (20_memory.md R64). -/
def defaultFont : Vector Byte 80 := #v[
  0xF0, 0x90, 0x90, 0x90, 0xF0,  0x20, 0x60, 0x20, 0x20, 0x70,
  0xF0, 0x10, 0xF0, 0x80, 0xF0,  0xF0, 0x10, 0xF0, 0x10, 0xF0,
  0x90, 0x90, 0xF0, 0x10, 0x10,  0xF0, 0x80, 0xF0, 0x10, 0xF0,
  0xF0, 0x80, 0xF0, 0x90, 0xF0,  0xF0, 0x10, 0x20, 0x40, 0x40,
  0xF0, 0x90, 0xF0, 0x90, 0xF0,  0xF0, 0x90, 0xF0, 0x10, 0xF0,
  0xF0, 0x90, 0xF0, 0x90, 0x90,  0xE0, 0x90, 0xE0, 0x90, 0xE0,
  0xF0, 0x80, 0x80, 0x80, 0xF0,  0xE0, 0x90, 0x90, 0x90, 0xE0,
  0xF0, 0x80, 0xF0, 0x80, 0xF0,  0xF0, 0x80, 0xF0, 0x80, 0x80]

end Sys2Proof.Machine
end

