-- ==== Sys2Proof/Machine/State.lean ====
section
/-! DEFINITION. The machine's state as plain data: the core state of 10_state.md R20, the configuration of 00_scope.md R6,
the collaborators the model includes (46_external_interfaces.md R233, R237), and the model's own fields for what comes in
and goes out through the ports. -/

namespace Sys2Proof.Machine

/-- The faults of 60_exceptions.md R260 with the information each carries. A fault is the outcome of a step and has no
successor state (R272), so a model that stops here is safe: nothing can be proved of the state after it. -/
inductive Fault where
  /-- `OutOfRange`, raised by a fetch, `Dxyn`, `Fx33`, `Fx55`, `Fx65` or a host accessor that touches an address above 4095
  (R261); carries the address. Safe. -/
  | outOfRange (addr : Nat)
  /-- `OutOfRange` again, for an address below 0, which only a host accessor can be given (20_memory.md R71); carries the
  address. Reported to the host, never raised by a step. Safe. -/
  | outOfRangeBelowZero (addr : Int)
  /-- Raised by `00EE` when the stack is empty (R262). Safe. -/
  | stackUnderflow
  /-- Reported to the host by `loadProgram` (R264); carries the length. Never raised by a step. Safe. -/
  | programTooLarge (len : Nat)
  /-- Raised by decode for a word that matches no pattern (R263); carries the word. Safe. -/
  | unknownOpcode (w : Word)
  /-- Reported to the host by a register accessor (R265); carries the index, which the host may give below 0. Never raised by a
  step. Safe. -/
  | invalidRegister (idx : Int)
  /-- Raised by `2nnn` when a finite `STACK_DEPTH` is reached (R266). Safe. -/
  | stackOverflow
  deriving DecidableEq, Repr

/-- What the model does not run. -/
inductive Refusal where
  /-- An instruction with no meaning yet, by its mnemonic. Raised by exec's arms only; none of them does. Safe. -/
  | notModelled (mnemonic : String)
  /-- `loadProgram` issued after the first frame began, which "a model refuses" (46_external_interfaces.md R240). Raised
  by the host command only, never by a step. Safe. -/
  | loadOutsideBoot
  /-- A debug accessor used while a frame is in progress, where "they may be used only between frames"
  (46_external_interfaces.md R243). Raised by the host commands only, never by a step. Safe. -/
  | accessDuringFrame
  deriving DecidableEq, Repr

/-- A request the core makes on one of its ports (46_external_interfaces.md R230). -/
inductive PortRequest where
  /-- `Display.clear()` (R231) -/
  | clear
  /-- `Display.setPixel(x, y)` with the unreduced coordinates (R232) -/
  | setPixel (x y : Nat)
  /-- `Display.present()` (R234) -/
  | present
  /-- `Keypad.isPressed(code)` (R235) -/
  | isPressed (code : Byte)
  /-- `Audio.play(f)` (R237) -/
  | play (frequencyHz : Nat)
  /-- `Audio.stop()` (R237) -/
  | stop
  /-- `Random.byte()` (R238) -/
  | randomByte
  deriving DecidableEq, Repr

/-- The run state of the core (10_state.md R40). -/
inductive RunState where
  | running
  | waiting
  | halted
  deriving DecidableEq, Repr

/-- Memory as the list of cells that differ from what reset puts there, addresses strictly rising. -/
abbrev Memory := List Host.Cell

/-- The machine's state. -/
structure State where
  /-- `V[0]`..`V[15]` (10_state.md R21) -/
  v : Vector Byte 16
  /-- The index register `I` (10_state.md R26) -/
  i : Word
  /-- The program counter (10_state.md R28) -/
  pc : Word
  /-- The delay timer (10_state.md R33) -/
  dt : Byte
  /-- The sound timer (10_state.md R34) -/
  st : Byte
  /-- The call stack, the most recently pushed value first (10_state.md R35) -/
  stack : List Word
  /-- True while waiting for a key press (10_state.md R37) -/
  paused : Bool
  /-- `KWX`, the register the pending wait will write (10_state.md R38). DESIGN CHOICE (log 7): while `paused` is false the
  spec leaves its content undefined, and the model keeps what it last held -/
  kwx : RegIdx
  /-- `FAULT` (10_state.md R39) -/
  fault : Option Fault
  /-- `MEM` (20_memory.md R60) -/
  mem : Memory
  /-- The configuration: constant, read only (10_state.md R20; log 6) -/
  config : Config
  /-- The reference display's `FB[r][c]`: row r, column c in bit c (46_external_interfaces.md R233; log 4) -/
  fb : Vector (BitVec 64) 32
  /-- The tone level on the audio port (46_external_interfaces.md R237; log 5) -/
  tone : Bool
  /-- The MODEL's own: every port request made so far, oldest first (log 5) -/
  requests : List PortRequest
  /-- The MODEL's own: what the surroundings supply at the next ticks, one record a tick (log 2) -/
  inputs : List TickInput
  /-- The MODEL's own: ticks taken so far, the argument of the free inputs (log 2) -/
  ticks : Nat
  /-- The MODEL's own: a frame has been started since reset (46_external_interfaces.md R240; log 8) -/
  frameStarted : Bool
  /-- The MODEL's own: a frame is in progress, its ticks begun and its end not reached (46_external_interfaces.md R243; log
  8) -/
  midFrame : Bool
  deriving DecidableEq, Repr

/-- The configuration State.reset names: the spec's defaults where it offers one (20_memory.md R64, 10_state.md R36), free
values where it offers none (log 6). -/
def defaultConfig : Config where
  speed := Config.anySpeed
  stackDepth := none
  font := defaultFont
  audioFreqHz := Config.anyAudioFreqHz

/-- The machine right after reset (10_state.md R45, 70_reset_and_hazards.md R300). Memory lists nothing: an unlisted
address reads as what reset puts there. Not the spec's: `kwx` (log 7), the collaborators' contents (log 4, log 5) and the
model's own fields (log 2, log 5, log 8). -/
def State.reset : State where
  v := Vector.replicate 16 0#8
  i := 0#16
  pc := BitVec.ofNat 16 resetVector
  dt := 0#8
  st := 0#8
  stack := []
  paused := false
  kwx := 0
  fault := none
  mem := []
  config := defaultConfig
  fb := ⟨((List.range 32).map Config.anyDisplayRow).toArray, by simp⟩
  tone := Config.anyTone
  requests := []
  inputs := []
  ticks := 0
  frameStarted := false
  midFrame := false

end Sys2Proof.Machine
end

