-- ==== Sys2Proof/Machine/Ops.lean ====
section
/-! DEFINITION. The named operations over registers, memory, stack, timers and ports that the meanings share, and raising a
fault as one operation. There is no return from a fault to stand beside it (60_exceptions.md R271). -/

namespace Sys2Proof.Machine

/-- What a step or a meaning answers. -/
abbrev Result := Host.Outcome State Fault Refusal

/-! Raising a fault. -/

/-- `raise`: the outcome of the step is the fault, with no successor state (00_scope.md R11, 60_exceptions.md R270, R272). -/
def raise (f : Fault) : Result := .fault f

/-- Go on with the value of an access, or raise the fault it met. -/
def orRaise {α : Type} (r : Except Fault α) (k : α → Result) : Result :=
  match r with
  | .ok a => k a
  | .error f => raise f

/-- Go on with the next state, or end as the first part ended. -/
def thenNext (o : Result) (k : State → State) : Result :=
  match o with
  | .next s => .next (k s)
  | .fault f => .fault f
  | .refused r => .refused r

/-! One write for each field a meaning or the engine writes. -/

def setI (a : Word) (s : State) : State := { s with i := a }
def setPc (a : Word) (s : State) : State := { s with pc := a }
def setDt (b : Byte) (s : State) : State := { s with dt := b }
def setSt (b : Byte) (s : State) : State := { s with st := b }
def setStack (k : List Word) (s : State) : State := { s with stack := k }
def setPaused (p : Bool) (s : State) : State := { s with paused := p }
def setKwx (x : RegIdx) (s : State) : State := { s with kwx := x }
def setMem (m : Memory) (s : State) : State := { s with mem := m }
def setFb (f : Vector (BitVec 64) 32) (s : State) : State := { s with fb := f }
def setTone (b : Bool) (s : State) : State := { s with tone := b }

/-- Record a port request (46_external_interfaces.md R230; log 5). -/
def addRequest (r : PortRequest) (s : State) : State := { s with requests := s.requests ++ [r] }

/-! General registers (10_state.md R21). -/

/-- `V[x]`. -/
def readReg (x : RegIdx) (s : State) : Byte := s.v[x.val]

/-- `V[x] <- b` (00_scope.md R9). -/
def writeReg (x : RegIdx) (b : Byte) (s : State) : State := { s with v := s.v.set x.val b }

/-- `VF`, the flag register: `V[15]` (10_state.md R24). -/
def flagReg : RegIdx := 15

/-- `V[k] <- b` for consecutive registers from `k` up, as the loop of `Fx65` writes them (43_index_memory.md R185); an
index past 15 cannot arise there (10_state.md R23) and would be dropped. -/
def writeRegs (k : Nat) (bs : List Byte) (s : State) : State :=
  match bs with
  | [] => s
  | b :: rest => writeRegs (k + 1) rest (if h : k < 16 then writeReg ⟨k, h⟩ b s else s)

/-- `V[0]`..`V[x]`, lowest first (43_index_memory.md R184). -/
def regsUpTo (x : RegIdx) (s : State) : List Byte := s.v.toList.take (x.val + 1)

/-! Memory (20_memory.md R60 to R70). -/

/-- What an unlisted address reads as: the reset content, the font and then zeros (20_memory.md R63, 10_state.md R45; log
13). -/
def unlistedByte (font : Vector Byte 80) (a : Nat) : Byte := if h : a < 80 then font[a] else 0#8

/-- The byte a memory holds at an address. -/
def lookupByte (font : Vector Byte 80) (a : Nat) : Memory → Byte
  | [] => unlistedByte font a
  | c :: rest => if c.1 = a then c.2 else lookupByte font a rest

/-- List a cell at its place in the rising order, in place of one at the same address. -/
def insertCell (a : Nat) (b : Byte) : Memory → Memory
  | [] => [(a, b)]
  | c :: rest =>
    if a < c.1 then (a, b) :: c :: rest
    else if a = c.1 then (a, b) :: rest
    else c :: insertCell a b rest

/-- Store a byte, keeping the canonical form: the value an unlisted address reads as is not listed. -/
def storeByte (font : Vector Byte 80) (a : Nat) (b : Byte) (m : Memory) : Memory :=
  if b = unlistedByte font a then m.filter (fun c => c.1 != a) else insertCell a b m

/-- The canonical form of a memory: addresses strictly rising, inside the address space, and no cell equal to what an
unlisted address reads as. -/
abbrev Memory.wf (font : Vector Byte 80) (m : Memory) : Prop :=
  m.Pairwise (fun c d => c.1 < d.1) ∧ ∀ c ∈ m, c.1 < memSize ∧ c.2 ≠ unlistedByte font c.1

/-- The byte at an address, with no range test: `MEM[a]`. -/
def byteAt (a : Nat) (s : State) : Byte := lookupByte s.config.font a s.mem

/-- `MemRead(a, 1)` (20_memory.md R61). -/
def memRead (a : Nat) (s : State) : Except Fault Byte :=
  if a < memSize then .ok (byteAt a s) else .error (.outOfRange a)

/-- `MemWrite(a, 1, b)` (20_memory.md R62). -/
def memWrite (a : Nat) (b : Byte) (s : State) : Except Fault State :=
  if a < memSize then .ok (setMem (storeByte s.config.font a b s.mem) s) else .error (.outOfRange a)

/-- `n` byte reads from `a` up, ascending (20_memory.md R69, R79). -/
def memReadBytes (a n : Nat) (s : State) : Except Fault (List Byte) :=
  match n with
  | 0 => .ok []
  | n + 1 =>
    match memRead a s with
    | .error f => .error f
    | .ok b =>
      match memReadBytes (a + 1) n s with
      | .error f => .error f
      | .ok bs => .ok (b :: bs)

/-- Byte writes from `a` up, ascending (20_memory.md R69, R79). -/
def memWriteBytes (a : Nat) (bs : List Byte) (s : State) : Except Fault State :=
  match bs with
  | [] => .ok s
  | b :: rest =>
    match memWrite a b s with
    | .error f => .error f
    | .ok t => memWriteBytes (a + 1) rest t

/-- Instruction fetch, `MemRead(pc, 2)`: the byte at `pc` is the more significant; `pc + 1` is not reduced (20_memory.md
R66, 00_scope.md R10). -/
def fetchWord (s : State) : Except Fault Word :=
  match memRead s.pc.toNat s with
  | .error f => .error f
  | .ok hi =>
    match memRead (s.pc.toNat + 1) s with
    | .error f => .error f
    | .ok lo => .ok (wordOfBytes hi lo)

/-! Program counter and stack. -/

/-- `pc <- (pc + 2) & 0xFFFF`: the pre-increment of 40_engine_cycle.md R123. -/
def advancePc (s : State) : State := setPc (s.pc + 2#16) s

/-- `skip` when the condition holds (40_engine_cycle.md R125): executed after the pre-increment. -/
def skipIf (c : Bool) (s : State) : State := if c then setPc (s.pc + 2#16) s else s

/-- A push would exceed a finite `STACK_DEPTH` (10_state.md R36, 41_control_flow.md R142). -/
def stackFull (s : State) : Bool := s.config.stackDepth == some s.stack.length

/-! The inputs of the tick (40_engine_cycle.md R131; log 2). -/

/-- What the surroundings supply for this tick: the head of the script, or a free value where the script has run out. -/
def currentInput (s : State) : TickInput := s.inputs.headD (Config.anyTickInput s.ticks)

/-- The key-press event (40_engine_cycle.md R122): it acts only on a core that waits and is not halted, else it is
dropped. The code is zero-extended. DESIGN CHOICE (log 7): `KWX` is left as it was, where the spec leaves its content undefined
once the wait has ended (10_state.md R38). -/
def keyPress (k : KeyCode) (s : State) : State :=
  if s.fault.isNone && s.paused then setPaused false (writeReg s.kwx (BitVec.ofNat 8 k.val) s) else s

/-- The events that fall before one tick, in order (46_external_interfaces.md R236): the first one delivered to a waiting
core ends the wait, so the others are dropped. -/
def deliverKeys (ks : List KeyCode) (s : State) : State :=
  if s.fault.isNone && s.paused then
    match ks with
    | [] => s
    | k :: _ => keyPress k s
  else s

/-! The timer unit. -/

/-- One timer: decrement by one unless it is zero (60_exceptions.md R274). -/
def decTimer (t : Byte) : Byte := if t = 0#8 then 0#8 else t - 1#8

/-- The timer step, `updateTimers()` (60_exceptions.md R274). -/
def timerStep (s : State) : State := setSt (decTimer s.st) (setDt (decTimer s.dt) s)

/-- The run state (10_state.md R40). -/
def runState (s : State) : RunState :=
  if s.fault.isSome then .halted else if s.paused then .waiting else .running

/-- The codes of 60_exceptions.md R260, diagnostic only. -/
def Fault.code : Fault → Nat
  | .outOfRange _ => 1
  | .outOfRangeBelowZero _ => 1
  | .stackUnderflow => 2
  | .programTooLarge _ => 3
  | .unknownOpcode _ => 4
  | .invalidRegister _ => 5
  | .stackOverflow => 6

end Sys2Proof.Machine
end

