-- ==== Sys2Proof/Machine/Operands.lean ====
section
/-! DEFINITION. The operand forms (30_encoding.md R94, 43_index_memory.md R186): registers are read with `readReg`, `kk` is
used as it stands, `nnn` is zero-extended; data addresses are `I + k`. -/

namespace Sys2Proof.Machine

/-- `zext_16(nnn)` (30_encoding.md R94). -/
def zext16 (nnn : Addr12) : Word := nnn.setWidth 16

/-- The effective address `I + k`, an unbounded natural that is never reduced (20_memory.md R70). -/
def dataAddr (k : Nat) (s : State) : Nat := s.i.toNat + k

/-- `I + V[x]`, masked to 16 bits (43_index_memory.md R181). -/
def indexSum (a : Word) (b : Byte) : Word := BitVec.ofNat 16 (a.toNat + b.toNat)

/-- `nnn + V[0]`, masked to 16 bits (41_control_flow.md R143). -/
def jumpSum (nnn : Addr12) (b : Byte) : Word := BitVec.ofNat 16 (nnn.toNat + b.toNat)

/-- `V[x] * 5`, the whole 8-bit value, no nibble mask (43_index_memory.md R182). -/
def glyphAddr (b : Byte) : Word := BitVec.ofNat 16 (b.toNat * 5)

/-- The three digits `Fx33` stores, hundreds first, each a whole byte (43_index_memory.md R183). -/
def bcdDigits (b : Byte) : List Byte :=
  [BitVec.ofNat 8 (b.toNat / 100), BitVec.ofNat 8 (b.toNat / 10 % 10), BitVec.ofNat 8 (b.toNat % 10)]

end Sys2Proof.Machine
end

