-- ==== Sys2Proof/Machine/ControlFlow.lean ====
section
/-! DEFINITION. Control transfer (41_control_flow.md). Each meaning is the execute phase: `pc` already holds the address of
the following instruction (40_engine_cycle.md R123, R124). -/

namespace Sys2Proof.Machine

/-- `00EE` (R140): pop into `pc`; an empty stack underflows before any change. -/
def execRet (s : State) : Result :=
  match s.stack with
  | [] => raise .stackUnderflow
  | a :: rest => .next (setPc a (setStack rest s))

/-- `1nnn` (R141). -/
def execJp (nnn : Addr12) (s : State) : Result := .next (setPc (zext16 nnn) s)

/-- `2nnn` (R142): push the pre-incremented `pc`; a finite depth reached overflows before any change. -/
def execCall (nnn : Addr12) (s : State) : Result :=
  if stackFull s then raise .stackOverflow
  else .next (setPc (zext16 nnn) (setStack (s.pc :: s.stack) s))

/-- `Bnnn` (R143): the offset register is always `V[0]`. -/
def execJpV0 (nnn : Addr12) (s : State) : Result := .next (setPc (jumpSum nnn (readReg 0 s)) s)

/-- `3xkk` (R144). -/
def execSeImm (x : RegIdx) (kk : Byte) (s : State) : Result := .next (skipIf (readReg x s == kk) s)

/-- `4xkk` (R145). -/
def execSneImm (x : RegIdx) (kk : Byte) (s : State) : Result := .next (skipIf (readReg x s != kk) s)

/-- `5xy0` (R146). -/
def execSeReg (x y : RegIdx) (s : State) : Result := .next (skipIf (readReg x s == readReg y s) s)

/-- `9xy0` (R147). -/
def execSneReg (x y : RegIdx) (s : State) : Result := .next (skipIf (readReg x s != readReg y s) s)

end Sys2Proof.Machine
end

