-- ==== Sys2Proof/Machine/Flags.lean ====
section
/-! DEFINITION. The flag values written to `VF` (10_state.md R24, 42_load_alu.md R175): always 0 or 1. -/

namespace Sys2Proof.Machine

/-- `c ? 1 : 0` as a byte (10_state.md R24). -/
def flagByte (c : Bool) : Byte := if c then 1#8 else 0#8

/-- The exact sum of two bytes exceeds 0xFF: the flag of `8xy4` (42_load_alu.md R166). -/
def carryFlag (a b : Byte) : Byte := flagByte (decide (255 < a.toNat + b.toNat))

/-- `a > b` strictly, so 0 for equal operands: the flag of `8xy5` and `8xy7` (42_load_alu.md R167, R169). -/
def greaterFlag (a b : Byte) : Byte := flagByte (decide (b.toNat < a.toNat))

/-- Bit 0, the bit `8xy6` shifts out (42_load_alu.md R168). -/
def lowBitFlag (a : Byte) : Byte := a &&& 0x1#8

/-- Bit 7, the bit `8xyE` shifts out (42_load_alu.md R170). -/
def highBitFlag (a : Byte) : Byte := (a >>> 7) &&& 0x1#8

/-- Write a flag value to `VF` (10_state.md R24). -/
def writeFlag (b : Byte) (s : State) : State := writeReg flagReg b s

end Sys2Proof.Machine
end

