-- ==== Sys2Proof/Machine/Ports.lean ====
section
/-! DEFINITION. The port transactions instructions make (46_external_interfaces.md): the reference display of R233, the
keypad query of R235, the random byte of R238. Every request is recorded. -/

namespace Sys2Proof.Machine

/-- `FB[r][c]`, coordinates already wrapped (46_external_interfaces.md R233). -/
def pixelAt (c r : Nat) (s : State) : Bool := (s.fb[r % 32]'(Nat.mod_lt r (by decide))).getLsbD (c % 64)

/-- `Display.clear()`: every pixel off (46_external_interfaces.md R231, R233). -/
def displayClear (s : State) : State := addRequest .clear (setFb (Vector.replicate 32 0#64) s)

/-- `Display.setPixel(x, y)`: toggle the pixel at `x mod 64, y mod 32` and answer whether it was on before
(46_external_interfaces.md R232, R233). -/
def setPixel (x y : Nat) (s : State) : Bool × State :=
  (pixelAt x y s,
   addRequest (.setPixel x y)
    (setFb (s.fb.set (y % 32) ((s.fb[y % 32]'(Nat.mod_lt y (by decide))) ^^^ (1#64 <<< (x % 64)))
      (Nat.mod_lt y (by decide))) s))

/-- The calls of a sequence of pixels, in order; the answer is whether any call reported a collision. -/
def setPixels : List (Nat × Nat) → State → Bool × State
  | [], s => (false, s)
  | p :: ps, s =>
    let one := setPixel p.1 p.2 s
    let rest := setPixels ps one.2
    (one.1 || rest.1, rest.2)

/-- The pixels of one sprite row: column `col` is bit `7 - col`, columns ascending, 1 bits only (44_display.md R201,
R203). -/
def rowPixels (vx y : Nat) (b : Byte) : List (Nat × Nat) :=
  ((List.range 8).filter (fun col => b.getLsbD (7 - col))).map (fun col => (vx + col, y))

/-- The pixels of a sprite, rows ascending, the coordinates the plain sums (44_display.md R201). -/
def spritePixels (vx y : Nat) : List Byte → List (Nat × Nat)
  | [] => []
  | b :: bs => rowPixels vx y b ++ spritePixels vx (y + 1) bs

/-- The keypad's answer for a code: the level of the key for 0..15, an unconstrained draw above
(46_external_interfaces.md R235). -/
def keyReply (code : Byte) (inp : TickInput) : Bool :=
  if h : code.toNat < 16 then inp.keysDown[code.toNat] else inp.replyAbove15

/-- `Keypad.isPressed(code)`: the answer, and the state with the request recorded (46_external_interfaces.md R235). -/
def isPressed (code : Byte) (s : State) : Bool × State :=
  (keyReply code (currentInput s), addRequest (.isPressed code) s)

/-- `Random.byte()`: the byte drawn, and the state with the request recorded (46_external_interfaces.md R238). -/
def randomByte (s : State) : Byte × State :=
  ((currentInput s).randomByte, addRequest .randomByte s)

end Sys2Proof.Machine
end

