-- ==== Sys2Proof/Machine/Display.lean ====
section
/-! DEFINITION. Display instructions (44_display.md). -/

namespace Sys2Proof.Machine

/-- `00E0` (R200). -/
def execCls (s : State) : Result := .next (displayClear s)

/-- `Dxyn` (R201): both coordinates are sampled first and `VF` is written once, last (R202, the spec's decision D8; log
10). The rows are read before the first call is made, which no one can tell from the loop of R201: a fault has no successor
state (60_exceptions.md R272) and no call changes memory (log 14). -/
def execDrw (x y : RegIdx) (n : Fin 16) (s : State) : Result :=
  let vx := (readReg x s).toNat
  let vy := (readReg y s).toNat
  orRaise (memReadBytes (dataAddr 0 s) n.val s) (fun bs =>
    let r := setPixels (spritePixels vx vy bs) s
    .next (writeFlag (flagByte r.1) r.2))

end Sys2Proof.Machine
end

