-- ==== Sys2Proof/Machine/IndexMemory.lean ====
section
/-! DEFINITION. Index register and memory instructions (43_index_memory.md). None touches `pc`; `Fx33`, `Fx55` and `Fx65`
leave `I` as it was (R186). -/

namespace Sys2Proof.Machine

/-- `Annn` (R180). -/
def execLdI (nnn : Addr12) (s : State) : Result := .next (setI (zext16 nnn) s)

/-- `Fx1E` (R181): 16-bit wrap, no flag. -/
def execAddI (x : RegIdx) (s : State) : Result := .next (setI (indexSum s.i (readReg x s)) s)

/-- `Fx29` (R182). -/
def execLdF (x : RegIdx) (s : State) : Result := .next (setI (glyphAddr (readReg x s)) s)

/-- `Fx33` (R183). -/
def execLdB (x : RegIdx) (s : State) : Result :=
  orRaise (memWriteBytes (dataAddr 0 s) (bcdDigits (readReg x s)) s) (fun t => .next t)

/-- `Fx55` (R184). -/
def execStRegs (x : RegIdx) (s : State) : Result :=
  orRaise (memWriteBytes (dataAddr 0 s) (regsUpTo x s) s) (fun t => .next t)

/-- `Fx65` (R185). -/
def execLdRegs (x : RegIdx) (s : State) : Result :=
  orRaise (memReadBytes (dataAddr 0 s) (x.val + 1) s) (fun bs => .next (writeRegs 0 bs s))

end Sys2Proof.Machine
end

