-- ==== Sys2Proof/Machine/KeypadTimers.lean ====
section
/-! DEFINITION. Keypad and timer instructions (45_keypad_timers.md). None accesses memory and none faults. -/

namespace Sys2Proof.Machine

/-- `Ex9E` (R210): the whole 8-bit value of `V[x]` is the code. -/
def execSkp (x : RegIdx) (s : State) : Result :=
  let q := isPressed (readReg x s) s
  .next (skipIf q.1 q.2)

/-- `ExA1` (R211). -/
def execSknp (x : RegIdx) (s : State) : Result :=
  let q := isPressed (readReg x s) s
  .next (skipIf (!q.1) q.2)

/-- `Fx07` (R213). -/
def execLdVxDT (x : RegIdx) (s : State) : Result := .next (writeReg x s.dt s)

/-- `Fx0A` (R212): `KWX <- x`, `paused <- 1`; the register write belongs to the later event. -/
def execLdVxK (x : RegIdx) (s : State) : Result := .next (setPaused true (setKwx x s))

/-- `Fx15` (R214). -/
def execLdDTVx (x : RegIdx) (s : State) : Result := .next (setDt (readReg x s) s)

/-- `Fx18` (R215). -/
def execLdSTVx (x : RegIdx) (s : State) : Result := .next (setSt (readReg x s) s)

end Sys2Proof.Machine
end

