-- ==== Sys2Proof/Machine/LoadAlu.lean ====
section
/-! DEFINITION. Register load, arithmetic, logic, shift and random (42_load_alu.md). None touches `pc`, memory, the stack,
the timers or `I`, and none faults. The flag-writing instructions are statement sequences, each statement reading the
registers as the one before left them (R177, the spec's decision D7; log 10); `8xy4` reads both operands first. -/

namespace Sys2Proof.Machine

/-- `6xkk` (R160). -/
def execLdImm (x : RegIdx) (kk : Byte) (s : State) : Result := .next (writeReg x kk s)

/-- `7xkk` (R161): wraps, no flag. -/
def execAddImm (x : RegIdx) (kk : Byte) (s : State) : Result := .next (writeReg x (readReg x s + kk) s)

/-- `8xy0` (R162). -/
def execLdReg (x y : RegIdx) (s : State) : Result := .next (writeReg x (readReg y s) s)

/-- `8xy1` (R163). -/
def execOrReg (x y : RegIdx) (s : State) : Result := .next (writeReg x (readReg x s ||| readReg y s) s)

/-- `8xy2` (R164). -/
def execAndReg (x y : RegIdx) (s : State) : Result := .next (writeReg x (readReg x s &&& readReg y s) s)

/-- `8xy3` (R165). -/
def execXorReg (x y : RegIdx) (s : State) : Result := .next (writeReg x (readReg x s ^^^ readReg y s) s)

/-- `8xy4` (R166): the sum first, then the flag, then the destination last. -/
def execAddReg (x y : RegIdx) (s : State) : Result :=
  let a := readReg x s
  let b := readReg y s
  .next (writeReg x (a + b) (writeFlag (carryFlag a b) s))

/-- `8xy5` (R167): the flag, then the difference of the registers as the flag write left them. -/
def execSubReg (x y : RegIdx) (s : State) : Result :=
  let s1 := writeFlag (greaterFlag (readReg x s) (readReg y s)) s
  .next (writeReg x (readReg x s1 - readReg y s1) s1)

/-- `8xy6` (R168): `V[x]` in place; `y` is ignored (30_encoding.md R100). -/
def execShr (x _y : RegIdx) (s : State) : Result :=
  let s1 := writeFlag (lowBitFlag (readReg x s)) s
  .next (writeReg x (readReg x s1 >>> 1) s1)

/-- `8xy7` (R169). -/
def execSubnReg (x y : RegIdx) (s : State) : Result :=
  let s1 := writeFlag (greaterFlag (readReg y s) (readReg x s)) s
  .next (writeReg x (readReg y s1 - readReg x s1) s1)

/-- `8xyE` (R170): `V[x]` in place; `y` is ignored (30_encoding.md R100). -/
def execShl (x _y : RegIdx) (s : State) : Result :=
  let s1 := writeFlag (highBitFlag (readReg x s)) s
  .next (writeReg x (readReg x s1 <<< 1) s1)

/-- `Cxkk` (R171): one byte drawn, masked with `kk`. -/
def execRnd (x : RegIdx) (kk : Byte) (s : State) : Result :=
  let r := randomByte s
  .next (writeReg x (r.1 &&& kk) r.2)

end Sys2Proof.Machine
end

