-- ==== Sys2Proof/Machine/Tick.lean ====
section
/-! DEFINITION. The tick (40_engine_cycle.md): fetch, pre-increment, decode, execute, then the timer step. -/

namespace Sys2Proof.Machine

/-- Decode and execute a fetched word with `pc` already advanced: an illegal word raises `UnknownOpcode(w)`
(40_engine_cycle.md R123, 60_exceptions.md R263). A word is two bytes, so the decoder's other rejection cannot arise. -/
def execWord (w : Word) (s : State) : Result :=
  match decodeWord w with
  | .ok i => exec i s
  | .error _ => raise (.unknownOpcode w)

/-- The instruction step of 40_engine_cycle.md R123. -/
def instructionStep (s : State) : Result := orRaise (fetchWord s) (fun w => execWord w (advancePc s))

/-- The tick of 40_engine_cycle.md R121: nothing at all in a halted core; the timer step alone in a waiting one (R128); a
fault ends the tick before its timer step (R129). -/
def tick (s : State) : Result :=
  if s.fault.isSome then .next s
  else if s.paused then .next (timerStep s)
  else thenNext (instructionStep s) timerStep

/-- The model's own bookkeeping after a tick: the tick's input is used up, and a frame has been started and is in progress (log 2, log 8). -/
def closeTick (s : State) : State :=
  { s with inputs := s.inputs.tail, ticks := s.ticks + 1, frameStarted := true, midFrame := true }

/-- One step of the machine: the key-press events that fall before the tick, then the tick (40_engine_cycle.md R121, R122;
log 1). A halted core does nothing (10_state.md R39). -/
def takeStep (s : State) : Result :=
  if s.fault.isSome then .next s
  else thenNext (tick (deliverKeys (currentInput s).keyPresses s)) closeTick

/-- Store the bytes of a word where the next fetch reads it, in a core that is about to fetch: not halted, not waiting, and
with `pc` at a place that holds two bytes (log 11). -/
def placeFetchWord (w : Word) (s : State) : State :=
  let a : Nat := if s.pc.toNat + 1 < memSize then s.pc.toNat else resetVector
  let m := storeByte s.config.font (a + 1) (loByte w) (storeByte s.config.font a (hiByte w) s.mem)
  { s with mem := m, pc := BitVec.ofNat 16 a, paused := false, fault := none }

end Sys2Proof.Machine
end

