-- ==== Sys2Proof/Machine/Step.lean ====
section
/-! DEFINITION. The machine's step, and the placing of one instruction where the step fetches it. -/

namespace Sys2Proof.Machine

/-- One step: the key-press events before the tick, then the tick (40_engine_cycle.md R121, R122). -/
def step (s : State) : Host.Outcome State Fault Refusal := takeStep s

/-- `s` with the instruction whose bits are `w` (numbered as spec/opcode_table.json numbers them, bits at `nbits` and above
0) stored where `step` fetches next; a halted or waiting core is set running, so that the next step runs it (log 11). -/
def State.withFetchWord (s : State) (nbits w : Nat) : State := placeFetchWord (BitVec.ofNat 16 (w % 2 ^ nbits)) s

end Sys2Proof.Machine
end

