-- ==== Sys2Proof/WellFormed.lean ====
section
/-! DEFINITION. What must be checked of a term before it means anything. An `Instr` needs no check: each operand's type is
its field's width (30_encoding.md R92, R94), so an operand out of range cannot be written. What remains are the
configuration (00_scope.md R6) and a program image (46_external_interfaces.md R240). -/

namespace Sys2Proof

/-- `STACK_DEPTH` is "either unbounded ... or a positive number N" (00_scope.md R6). -/
def Config.wf (c : Config) : Bool := c.stackDepth != some 0

/-- A program image fits when `0x200 + len(bytes) <= 4096` (46_external_interfaces.md R240, R264). -/
def imageFits (bytes : List Byte) : Bool := decide (0x200 + bytes.length ≤ 4096)

end Sys2Proof
end

