-- ==== Sys2Proof/Machine/HostPort.lean ====
section
/-! DEFINITION. The host port (46_external_interfaces.md R239 to R243) and the frame (40_engine_cycle.md R127). Each command
is an operation over State that happens between ticks; the accessors work between frames and are refused inside one
(R243). Last, the condition under which the result of a program is read (40_engine_cycle.md R130). -/

namespace Sys2Proof.Machine

/-- What a host command answers: the state after it, with or without an error reported to the host, or a refusal. -/
inductive HostReply where
  | done (s : State)
  | reported (f : Fault) (s : State)
  | refused (r : Refusal)
  deriving DecidableEq, Repr

/-- What a reading accessor answers: the value, an error reported to the host, or a refusal. -/
inductive HostValue (α : Type) where
  | value (a : α)
  | reported (f : Fault)
  | refused (r : Refusal)
  deriving DecidableEq, Repr

/-- `reset` (R239, 70_reset_and_hazards.md R300, R302): every item of core state takes its reset value; the collaborators
are not touched and no port request is made. -/
def hostReset (s : State) : State :=
  { State.reset with
    config := s.config, fb := s.fb, tone := s.tone, requests := s.requests, inputs := s.inputs, ticks := s.ticks }

/-- Bytes stored from `a` up, for a range already known to be inside memory. -/
def placeBytes (font : Vector Byte 80) (a : Nat) (bs : List Byte) (m : Memory) : Memory :=
  match bs with
  | [] => m
  | b :: rest => placeBytes font (a + 1) rest (storeByte font a b m)

/-- `loadProgram(bytes)` (R240): the length test before any byte is copied; refused once a frame has begun. -/
def loadProgram (bytes : List Byte) (s : State) : HostReply :=
  if s.frameStarted then .refused .loadOutsideBoot
  else if imageFits bytes then .done (setMem (placeBytes s.config.font resetVector bytes s.mem) s)
  else .reported (.programTooLarge bytes.length) s

/-- `n` ticks in sequence, stopping at once at a fault (40_engine_cycle.md R127, R129). -/
def runTicks : Nat → State → Result
  | 0, s => .next s
  | n + 1, s =>
    match step s with
    | .next t => runTicks n t
    | .fault f => .fault f
    | .refused r => .refused r

/-- The end of a frame whose ticks all completed: the audio update, then the present request (40_engine_cycle.md R127,
46_external_interfaces.md R234, R237). The tone level holds until the next frame end. -/
def frameEnd (s : State) : State :=
  let audio :=
    if 0 < s.st.toNat then setTone true (addRequest (.play s.config.audioFreqHz) s)
    else setTone false (addRequest .stop s)
  addRequest .present audio

/-- The state before the first of `n` ticks that does not complete: the ticks before it are done, it is not. -/
def lastState : Nat → State → State
  | 0, s => s
  | n + 1, s =>
    match step s with
    | .next t => lastState n t
    | _ => s

/-- The rows of a sprite that lie inside memory, which a draw reads before it meets the address that is out of range
(20_memory.md R79). -/
def rowsInMemory (n : Nat) (s : State) : List Byte :=
  (List.range (min n (memSize - dataAddr 0 s))).map (fun k => byteAt (dataAddr k s) s)

/-- The `setPixel` calls the instruction of a faulting tick may have made, as coordinates: those of a `Dxyn`'s rows inside
memory. No other instruction that faults makes a port call (60_exceptions.md R261, R262, R266). -/
def faultingCalls (s : State) : List (Nat × Nat) :=
  let u := deliverKeys (currentInput s).keyPresses s
  match fetchWord u with
  | .error _ => []
  | .ok w =>
    match decodeWord w with
    | .ok (.drw x y n) => spritePixels (readReg x u).toNat (readReg y u).toNat (rowsInMemory n.val u)
    | _ => []

/-- Those of the possible calls that were made. Which they are is unspecified (60_exceptions.md R272): any of them, as the
record of `unspecified` has it. -/
def callsMade (unspecified s : State) : List PortRequest :=
  ((faultingCalls s).map (fun p => PortRequest.setPixel p.1 p.2)).filter (fun q => unspecified.requests.contains q)

/-- The core after a fault in the tick that began in `s`: `FAULT` is latched and everything the spec leaves unspecified, the
display with it, is as in `unspecified`, an argument under no law (60_exceptions.md R270, R272; log 9). What the spec does say
stays: the calls of the ticks completed before were made, no audio update and no present request follows (40_engine_cycle.md
R129), the configuration does not change, and the frame is over. -/
def haltCore (f : Fault) (unspecified s : State) : State :=
  { unspecified with
    fault := some f, config := s.config, tone := s.tone, requests := s.requests ++ callsMade unspecified s,
    frameStarted := true, midFrame := false }

/-- `runFrame` (R241, 40_engine_cycle.md R127): `SPEED` ticks, the audio update and the present request; a fault ends the
frame at once and is reported; a halted core does nothing and reports the same fault again (R242). -/
def runFrame (unspecified s : State) : HostReply :=
  match s.fault with
  | some f => .reported f s
  | none =>
    match runTicks s.config.speed s with
    | .next t => .done { frameEnd t with frameStarted := true, midFrame := false }
    | .fault f => .reported f (haltCore f unspecified (lastState s.config.speed s))
    | .refused r => .refused r

/-! The debug accessors (R243): between frames only; a failing one reports to the host, changes nothing and does not set
`FAULT`. Addresses and indices are integers here, since the host can give one below 0 (20_memory.md R71). -/

/-- A reading accessor inside a frame is refused; between frames it answers. -/
def betweenFrames {α : Type} (s : State) (r : HostValue α) : HostValue α :=
  if s.midFrame then .refused .accessDuringFrame else r

/-- A writing accessor inside a frame is refused; between frames it acts. -/
def betweenFramesDo (s : State) (r : HostReply) : HostReply :=
  if s.midFrame then .refused .accessDuringFrame else r

/-- Memory `read(addr)`. -/
def hostRead (a : Int) (s : State) : HostValue Byte :=
  betweenFrames s (match a with
    | .ofNat n =>
      match memRead n s with
      | .ok b => .value b
      | .error f => .reported f
    | .negSucc n => .reported (.outOfRangeBelowZero (.negSucc n)))

/-- Memory `write(addr, byte)`. -/
def hostWrite (a : Int) (b : Byte) (s : State) : HostReply :=
  betweenFramesDo s (match a with
    | .ofNat n =>
      match memWrite n b s with
      | .ok t => .done t
      | .error f => .reported f s
    | .negSucc n => .reported (.outOfRangeBelowZero (.negSucc n)) s)

/-- Register get, by index. -/
def hostGetReg (idx : Int) (s : State) : HostValue Byte :=
  betweenFrames s (if h : 0 ≤ idx ∧ idx < 16 then .value (readReg ⟨idx.toNat, by omega⟩ s)
    else .reported (.invalidRegister idx))

/-- Register set, by index. -/
def hostSetReg (idx : Int) (b : Byte) (s : State) : HostReply :=
  betweenFramesDo s (if h : 0 ≤ idx ∧ idx < 16 then .done (writeReg ⟨idx.toNat, by omega⟩ b s)
    else .reported (.invalidRegister idx) s)

/-- Timer get: delay and sound. -/
def hostGetTimers (s : State) : HostValue (Byte × Byte) := betweenFrames s (.value (s.dt, s.st))

/-- Delay timer set. -/
def hostSetDelay (b : Byte) (s : State) : HostReply := betweenFramesDo s (.done (setDt b s))

/-- Sound timer set. -/
def hostSetSound (b : Byte) (s : State) : HostReply := betweenFramesDo s (.done (setSt b s))

/-! Where the result of a program is read (40_engine_cycle.md R130): the rule asks the model for the definition. -/

/-- The core has arrived at the idle loop at `a`: it is running, so neither halted nor waiting, and `pc` is `a`. DESIGN CHOICE
(log 15), after the rule's own example. -/
def arrivedAt (a : Word) (s : State) : Bool := decide (runState s = .running) && s.pc == a

/-- The state in which the result of a program is read: the first, from `s` on and within `n` ticks, that has arrived at the
idle loop at `a`. None where a fault comes first, since a halted state is never a final one, or where `n` ticks do not reach
it. -/
def resultState (a : Word) : Nat → State → Option State
  | 0, s => if arrivedAt a s then some s else none
  | n + 1, s =>
    if arrivedAt a s then some s
    else
      match step s with
      | .next t => resultState a n t
      | _ => none

end Sys2Proof.Machine
end

