-- ==== Sys2Proof/Safety.lean ====
section
/-! DEFINITION. The terms claims are stated in: what one state has in common with another, the invariant of the core, and
the conditions under which an instruction completes. -/

namespace Sys2Proof.Machine

/-- The parts of State, one for each field. -/
inductive Part where
  | v | i | pc | dt | st | stack | paused | kwx | fault | mem | config | fb | tone | requests | inputs | ticks | frameStarted
  | midFrame
  deriving DecidableEq, Repr

/-- Two states agree on a part. Registers, memory and the display are compared through the model's own reads. -/
def Same (p : Part) (s t : State) : Prop :=
  match p with
  | .v => ∀ r, readReg r t = readReg r s
  | .i => t.i = s.i
  | .pc => t.pc = s.pc
  | .dt => t.dt = s.dt
  | .st => t.st = s.st
  | .stack => t.stack = s.stack
  | .paused => t.paused = s.paused
  | .kwx => t.kwx = s.kwx
  | .fault => t.fault = s.fault
  | .mem => ∀ a, byteAt a t = byteAt a s
  | .config => t.config = s.config
  | .fb => ∀ c r, pixelAt c r t = pixelAt c r s
  | .tone => t.tone = s.tone
  | .requests => t.requests = s.requests
  | .inputs => t.inputs = s.inputs
  | .ticks => t.ticks = s.ticks
  | .frameStarted => t.frameStarted = s.frameStarted
  | .midFrame => t.midFrame = s.midFrame

/-- Between `s` and `t` at most the named parts differ: the frame of an instruction. -/
def OnlyChanges (ps : List Part) (s t : State) : Prop := ∀ p, p ∉ ps → Same p s t

/-- Every register but the named ones keeps its value. -/
def RegsKeptBut (xs : List RegIdx) (s t : State) : Prop := ∀ r, r ∉ xs → readReg r t = readReg r s

/-- The parts an instruction may write in its execute phase, collected from 10_state.md R24, R26, R29, R33 to R38,
20_memory.md R60 and 46_external_interfaces.md R231 to R238. `pc` here is the change beyond the pre-increment. -/
def partsWritten : Instr → List Part
  | .cls => [.fb, .requests]
  | .ret => [.pc, .stack]
  | .jp _ => [.pc]
  | .call _ => [.pc, .stack]
  | .seImm _ _ => [.pc]
  | .sneImm _ _ => [.pc]
  | .seReg _ _ => [.pc]
  | .ldImm _ _ => [.v]
  | .addImm _ _ => [.v]
  | .ldReg _ _ => [.v]
  | .orReg _ _ => [.v]
  | .andReg _ _ => [.v]
  | .xorReg _ _ => [.v]
  | .addReg _ _ => [.v]
  | .subReg _ _ => [.v]
  | .shr _ _ => [.v]
  | .subnReg _ _ => [.v]
  | .shl _ _ => [.v]
  | .sneReg _ _ => [.pc]
  | .ldI _ => [.i]
  | .jpV0 _ => [.pc]
  | .rnd _ _ => [.v, .requests]
  | .drw _ _ _ => [.v, .fb, .requests]
  | .skp _ => [.pc, .requests]
  | .sknp _ => [.pc, .requests]
  | .ldVxDT _ => [.v]
  | .ldVxK _ => [.paused, .kwx]
  | .ldDTVx _ => [.dt]
  | .ldSTVx _ => [.st]
  | .addI _ => [.i]
  | .ldF _ => [.i]
  | .ldB _ => [.mem]
  | .stRegs _ => [.mem]
  | .ldRegs _ => [.v]

/-- The registers an instruction may write: its destination, `VF` where it writes a flag (10_state.md R24), `V0`..`Vx` for
`Fx65` (43_index_memory.md R185). -/
def regsWritten : Instr → List RegIdx
  | .ldImm x _ => [x]
  | .addImm x _ => [x]
  | .ldReg x _ => [x]
  | .orReg x _ => [x]
  | .andReg x _ => [x]
  | .xorReg x _ => [x]
  | .addReg x _ => [x, flagReg]
  | .subReg x _ => [x, flagReg]
  | .shr x _ => [x, flagReg]
  | .subnReg x _ => [x, flagReg]
  | .shl x _ => [x, flagReg]
  | .rnd x _ => [x]
  | .drw _ _ _ => [flagReg]
  | .ldVxDT x => [x]
  | .ldRegs x => (List.finRange 16).filter (fun k => k.val ≤ x.val)
  | .cls | .ret | .jp _ | .call _ | .seImm _ _ | .sneImm _ _ | .seReg _ _ | .sneReg _ _ | .ldI _ | .jpV0 _ | .skp _
  | .sknp _ | .ldVxK _ | .ldDTVx _ | .ldSTVx _ | .addI _ | .ldF _ | .ldB _ | .stRegs _ => []

/-- The addresses an instruction may store to, computed as its meaning computes them: `I`..`I + 2` for `Fx33`, `I`..`I + x`
for `Fx55` (20_memory.md R69). -/
def Stores (i : Instr) (s : State) (a : Nat) : Prop :=
  match i with
  | .ldB _ => dataAddr 0 s ≤ a ∧ a ≤ dataAddr 2 s
  | .stRegs x => dataAddr 0 s ≤ a ∧ a ≤ dataAddr x.val s
  | _ => False

/-- The faults an instruction raises in its execute phase, and where (60_exceptions.md R261, R262, R266). -/
def RaisesFault (i : Instr) (s : State) (f : Fault) : Prop :=
  match i with
  | .ret => s.stack = [] ∧ f = .stackUnderflow
  | .call _ => s.config.stackDepth = some s.stack.length ∧ f = .stackOverflow
  | .ldB _ => memSize < s.i.toNat + 3 ∧ f = .outOfRange (max s.i.toNat memSize)
  | .stRegs x => memSize < s.i.toNat + x.val + 1 ∧ f = .outOfRange (max s.i.toNat memSize)
  | .ldRegs x => memSize < s.i.toNat + x.val + 1 ∧ f = .outOfRange (max s.i.toNat memSize)
  | .drw _ _ n => 1 ≤ n.val ∧ memSize < s.i.toNat + n.val ∧ f = .outOfRange (max s.i.toNat memSize)
  | _ => False

/-- The word of `i` agrees with a match and a mask of 30_encoding.md R97. -/
def SpelledAs (i : Instr) (pattern mask : Word) : Prop := encode i &&& mask = pattern

/-- What the rules promise of every state a run reaches: memory in canonical form; `pc` at most 0x10FE (10_state.md R31);
stacked return addresses in 0x0002..0x1000 (R35); the stack no deeper than a finite `STACK_DEPTH` (R36). -/
structure Inv (s : State) : Prop where
  mem_wf : Memory.wf s.config.font s.mem
  pc_le : s.pc.toNat ≤ 0x10FE
  stack_range : ∀ a ∈ s.stack, 2 ≤ a.toNat ∧ a.toNat ≤ 0x1000
  stack_depth : ∀ n, s.config.stackDepth = some n → s.stack.length ≤ n

/-- The core is running: neither waiting nor halted (10_state.md R40). -/
def Running (s : State) : Prop := s.fault = none ∧ s.paused = false

/-- The core waits for a key press (10_state.md R40). -/
def Waiting (s : State) : Prop := s.fault = none ∧ s.paused = true

/-- The word at `pc` decodes to `i`: both bytes are inside memory and the higher-order one stands first. -/
def Fetches (i : Instr) (s : State) : Prop :=
  s.pc.toNat + 1 < memSize ∧ decodeWord (wordOfBytes (byteAt s.pc.toNat s) (byteAt (s.pc.toNat + 1) s)) = .ok i

/-- The pixel (c, r), with wrapped coordinates, is under a 1 bit of the `n`-row sprite at `I` drawn at (vx, vy)
(44_display.md R201, R203; 46_external_interfaces.md R232). -/
def Covered (s : State) (vx vy n : Nat) (c r : Nat) : Prop :=
  ∃ row col, row < n ∧ col < 8 ∧ (byteAt (s.i.toNat + row) s).getLsbD (7 - col) = true ∧
    (vx + col) % 64 = c ∧ (vy + row) % 32 = r

end Sys2Proof.Machine
end

