-- ==== Sys2Proof/Certificates/Slice0/Obligations.lean ====
section
/-! DEFINITION. The statements for the provers. Each docstring names the rules of spec/ it formalises, and the spec's own
decisions (`D<n>` of 92_eei_decisions.md) and the log entries it rests on. Statements about an instruction speak of its
execute phase: `pc` already holds the address of the following instruction (40_engine_cycle.md R123, R124). -/

open Sys2Proof Sys2Proof.Machine

/-! Encoding -/

/-- 30_encoding.md R90, R92, R93, R97: every instruction, with every operand at every value, is read back from its word and
from its two bytes, and the bytes after it are left. -/
def Obligations.DecodeOfEncodeIsTheInstruction : Prop :=
  ∀ (i : Instr) (rest : List Byte),
    decodeWord (encode i) = .ok i ∧ decodeBytes (encodeBytes i ++ rest) = .ok (i, rest)

/-- 30_encoding.md R93, R97: a word that decodes is the word of the instruction it decodes to. -/
def Obligations.EncodeOfDecodeIsTheWord : Prop :=
  ∀ (w : Word) (i : Instr), decodeWord w = .ok i → encode i = w

/-- 30_encoding.md R96 (decision D6), R97, R98: a word decodes to an instruction of the row that selects it, and is
rejected by name when no row selects it. -/
def Obligations.WordDecodesExactlyWhenARowSelectsIt : Prop :=
  ∀ w : Word,
    (∃ i, decodeWord w = .ok i ∧ rowOf i ∈ opcodeTable ∧ (rowOf i).selects w) ∨
    (decodeWord w = .error (.unknownOpcode w) ∧ ∀ r ∈ opcodeTable, ¬ r.selects w)

/-- 30_encoding.md R96: the rows are pairwise disjoint, so at most one row selects a word. -/
def Obligations.AtMostOneRowSelectsAWord : Prop :=
  ∀ (w : Word) (r q : OpRow), r ∈ opcodeTable → q ∈ opcodeTable → r.selects w → q.selects w → r = q

/-- 30_encoding.md R92, R97: seven words written out bit by bit from the match column and the fields, of classes 0, 2, 3, 8, D,
E and F. R96, R98: a class 5 word with `n = 1` is rejected, which is the spec's decision D6 (log 10). -/
def Obligations.WrittenOutWordsDecode : Prop :=
  decodeWord 0b0000_0000_1110_0000#16 = .ok .cls ∧
  decodeWord 0b0010_0011_0100_0101#16 = .ok (.call 0x345#12) ∧
  decodeWord 0b0011_1010_0100_0010#16 = .ok (.seImm 10 0x42#8) ∧
  decodeWord 0b1000_0001_0010_0101#16 = .ok (.subReg 1 2) ∧
  decodeWord 0b1101_0101_0110_0111#16 = .ok (.drw 5 6 7) ∧
  decodeWord 0b1110_0001_1001_1110#16 = .ok (.skp 1) ∧
  decodeWord 0b1111_0010_0101_0101#16 = .ok (.stRegs 2) ∧
  decodeWord 0b0101_0001_0010_0001#16 = .error (.unknownOpcode 0x5121#16)

/-! Reset -/

/-- 10_state.md R45 (stack, `paused`, `FAULT`: decision D17), 70_reset_and_hazards.md R301: the values of reset. `kwx` has
none in the spec (log 7) and is not spoken of. -/
def Obligations.ResetLeavesTheStatedValues : Prop :=
  (∀ x, readReg x State.reset = 0#8) ∧ State.reset.i = 0#16 ∧ State.reset.pc = 0x200#16 ∧
  State.reset.dt = 0#8 ∧ State.reset.st = 0#8 ∧ State.reset.stack = [] ∧ State.reset.paused = false ∧
  State.reset.fault = none ∧ runState State.reset = .running ∧
  (∀ (a : Nat) (h : a < 80), byteAt a State.reset = State.reset.config.font[a]) ∧
  (∀ a, 80 ≤ a → byteAt a State.reset = 0#8)

/-- 46_external_interfaces.md R239, 70_reset_and_hazards.md R300, R302 (decision D17): a reset in any state, halted and
waiting ones included, gives the core its reset values and touches neither the collaborators nor the ports nor the
configuration. `frameStarted` and `midFrame` are the model's own (log 8). -/
def Obligations.HostResetTouchesTheCoreAlone : Prop :=
  ∀ s : State,
    (∀ x, readReg x (hostReset s) = 0#8) ∧ (hostReset s).i = 0#16 ∧ (hostReset s).pc = 0x200#16 ∧
    (hostReset s).dt = 0#8 ∧ (hostReset s).st = 0#8 ∧ (hostReset s).stack = [] ∧
    runState (hostReset s) = .running ∧
    (∀ (a : Nat) (h : a < 80), byteAt a (hostReset s) = s.config.font[a]) ∧
    (∀ a, 80 ≤ a → byteAt a (hostReset s) = 0#8) ∧
    OnlyChanges [.v, .i, .pc, .dt, .st, .stack, .paused, .kwx, .fault, .mem, .frameStarted, .midFrame]
      s (hostReset s)

/-- 10_state.md R31, R35, R36, R45: the invariant holds right after reset. The memory form is the model's own choice (log 13);
that the stack is empty is the spec's decision D17 (log 10). -/
def Obligations.ResetStateSatisfiesInv : Prop := Inv State.reset

/-- 10_state.md R31, R35, R36 and the model's memory form (its own choice, log 13): every step keeps
the invariant. -/
def Obligations.EveryStepKeepsInv : Prop :=
  ∀ s t : State, Inv s → step s = .next t → Inv t

/-! The engine -/

/-- 40_engine_cycle.md R123: in a running core a step fetches at `pc`, advances `pc` by 2, decodes, and executes what it
decoded; an illegal word and a fetch outside memory end it there. What the model adds after the execute phase: the timer
step (R121) and its own bookkeeping of inputs (log 2). -/
def Obligations.StepRunsTheDecodedInstruction : Prop :=
  ∀ s : State, Running s →
    (∀ i, Fetches i s → step s = thenNext (exec i (advancePc s)) (fun t => closeTick (timerStep t))) ∧
    (∀ w e, s.pc.toNat + 1 < memSize → w = wordOfBytes (byteAt s.pc.toNat s) (byteAt (s.pc.toNat + 1) s) →
      decodeWord w = .error e → step s = .fault (.unknownOpcode w)) ∧
    (memSize ≤ s.pc.toNat + 1 → step s = .fault (.outOfRange (max s.pc.toNat memSize)))

/-- 20_memory.md R61, R66: fetch reads the byte at `pc` as the more significant one; outside memory it faults at the first
address that is out of range. R68: an odd `pc` fetches like any other, which is the spec's decision D5 (log 10). -/
def Obligations.FetchReadsTheHigherByteFirst : Prop :=
  ∀ s : State,
    (s.pc.toNat ≤ 0xFFE → ∃ w, fetchWord s = .ok w ∧
      w.toNat = 256 * (byteAt s.pc.toNat s).toNat + (byteAt (s.pc.toNat + 1) s).toNat) ∧
    (s.pc.toNat = 4095 → fetchWord s = .error (.outOfRange 4096)) ∧
    (4096 ≤ s.pc.toNat → fetchWord s = .error (.outOfRange s.pc.toNat))

/-- 20_memory.md R61, R62: a read answers the cell; a write inside memory is read back and changes no other cell and
nothing else; outside memory a read and a write fault with the address. -/
def Obligations.MemoryReadAfterWrite : Prop :=
  ∀ (s : State) (a : Nat) (b : Byte),
    (a < 4096 → memRead a s = .ok (byteAt a s) ∧ ∃ t, memWrite a b s = .ok t ∧ memRead a t = .ok b ∧
      (∀ c, c ≠ a → byteAt c t = byteAt c s) ∧ OnlyChanges [.mem] s t) ∧
    (4096 ≤ a → memRead a s = .error (.outOfRange a) ∧ memWrite a b s = .error (.outOfRange a))

/-- 40_engine_cycle.md R128 (decision D18), 10_state.md R37: while the core waits and no key-press event comes, a step is
the timer step alone. -/
def Obligations.WaitingCoreStepsItsTimersAlone : Prop :=
  ∀ s : State, Waiting s → (currentInput s).keyPresses = [] →
    ∃ t, step s = .next t ∧ t.dt.toNat = s.dt.toNat - 1 ∧ t.st.toNat = s.st.toNat - 1 ∧
      OnlyChanges [.dt, .st, .inputs, .ticks, .frameStarted, .midFrame] s t

/-- 40_engine_cycle.md R122 (decision D12): a key-press event writes the zero-extended code to the register `KWX` names and
ends the wait; in a core that does not wait it has no effect. That `KWX` itself stays as it was is the model's choice, since
10_state.md R38 leaves its content undefined once the wait has ended (log 7). -/
def Obligations.KeyPressEndsTheWait : Prop :=
  ∀ (s : State) (k : KeyCode),
    (Waiting s → (readReg s.kwx (keyPress k s)).toNat = k.val ∧ Running (keyPress k s) ∧
      RegsKeptBut [s.kwx] s (keyPress k s) ∧ OnlyChanges [.v, .paused] s (keyPress k s)) ∧
    (¬ Waiting s → keyPress k s = s)

/-- 46_external_interfaces.md R236: several events between two ticks are delivered one after the other; the first ends the
wait and the rest are dropped, which is what delivering each in turn does. -/
def Obligations.KeyPressesAreDeliveredInTurn : Prop :=
  ∀ (ks : List KeyCode) (s : State), deliverKeys ks s = ks.foldl (fun u k => keyPress k u) s

/-- 40_engine_cycle.md R122, 45_keypad_timers.md R212: after the event the next tick executes the instruction at `pc`. That
one step is the events and then the tick is the model's choice (log 1). -/
def Obligations.KeyPressResumesAtPc : Prop :=
  ∀ (s : State) (k : KeyCode) (ks : List KeyCode) (i : Instr),
    Waiting s → (currentInput s).keyPresses = k :: ks → Fetches i s →
    step s = thenNext (exec i (advancePc (keyPress k s))) (fun t => closeTick (timerStep t))

/-- 10_state.md R39, 40_engine_cycle.md R129, 46_external_interfaces.md R242 (decision D1): a halted core takes no tick,
drops key presses, reports the same fault at every frame, and only reset clears it. -/
def Obligations.HaltedCoreDoesNothingUntilReset : Prop :=
  ∀ (s : State) (f : Fault), s.fault = some f →
    step s = .next s ∧ (∀ k, keyPress k s = s) ∧ (∀ u, runFrame u s = .reported f s) ∧ Running (hostReset s)

/-- 60_exceptions.md R274, R275: both timers step down once, to zero and not below, in every tick that completes; a timer
written by the tick's own instruction is stepped in that same tick. -/
def Obligations.TimersRunDownOnceInEveryTick : Prop :=
  ∀ (s t : State) (i : Instr), Running s → Fetches i s → step s = .next t →
    (∀ x, i = .ldDTVx x → t.dt.toNat = (readReg x s).toNat - 1) ∧
    ((∀ x, i ≠ .ldDTVx x) → t.dt.toNat = s.dt.toNat - 1) ∧
    (∀ x, i = .ldSTVx x → t.st.toNat = (readReg x s).toNat - 1) ∧
    ((∀ x, i ≠ .ldSTVx x) → t.st.toNat = s.st.toNat - 1)

/-! Control flow -/

/-- 41_control_flow.md R140, 60_exceptions.md R262. -/
def Obligations.ReturnPopsTheStackIntoPc : Prop :=
  SpelledAs .ret 0x00EE 0xFFFF ∧ ∀ s : State,
    (s.stack = [] → exec .ret s = .fault .stackUnderflow) ∧
    (∀ a rest, s.stack = a :: rest →
      ∃ t, exec .ret s = .next t ∧ t.pc = a ∧ t.stack = rest ∧ OnlyChanges [.pc, .stack] s t)

/-- 41_control_flow.md R141, R143: the target is the 12-bit field, or its exact sum with `V[0]`, never reduced; neither is
checked, and a target of 0xFFF or above makes the next fetch fault. -/
def Obligations.JumpsSetPc : Prop :=
  ∀ (nnn : Addr12) (s : State),
    SpelledAs (.jp nnn) 0x1000 0xF000 ∧ SpelledAs (.jpV0 nnn) 0xB000 0xF000 ∧
    (∃ t, exec (.jp nnn) s = .next t ∧ t.pc.toNat = nnn.toNat ∧ OnlyChanges [.pc] s t ∧
      (t.pc.toNat = 0xFFF → fetchWord t = .error (.outOfRange 0x1000))) ∧
    (∃ t, exec (.jpV0 nnn) s = .next t ∧ t.pc.toNat = nnn.toNat + (readReg 0 s).toNat ∧ OnlyChanges [.pc] s t ∧
      (0xFFF ≤ t.pc.toNat → fetchWord t = .error (.outOfRange (max t.pc.toNat 0x1000))))

/-- The idle loop of 41_control_flow.md R141: a jump to its own address changes the timers alone, beside the model's own
bookkeeping of inputs and frames (log 2, log 8). -/
def Obligations.JumpToItselfChangesTheTimersAlone : Prop :=
  ∀ (nnn : Addr12) (s : State), Running s → Fetches (.jp nnn) s → s.pc.toNat = nnn.toNat →
    ∃ t, step s = .next t ∧ t.dt.toNat = s.dt.toNat - 1 ∧ t.st.toNat = s.st.toNat - 1 ∧ Fetches (.jp nnn) t ∧
      OnlyChanges [.dt, .st, .inputs, .ticks, .frameStarted, .midFrame] s t

/-- 41_control_flow.md R142, 10_state.md R36 (decision D3), 20_memory.md R77: the return address goes to the stack, which is
not in memory; a finite depth reached overflows. -/
def Obligations.CallPushesTheReturnAddress : Prop :=
  ∀ (nnn : Addr12) (s : State),
    SpelledAs (.call nnn) 0x2000 0xF000 ∧
    (s.config.stackDepth ≠ some s.stack.length →
      ∃ t, exec (.call nnn) s = .next t ∧ t.pc.toNat = nnn.toNat ∧ t.stack = s.pc :: s.stack ∧
        OnlyChanges [.pc, .stack] s t) ∧
    (s.config.stackDepth = some s.stack.length → exec (.call nnn) s = .fault .stackOverflow)

/-- 40_engine_cycle.md R124 and the round-trip property of 41_control_flow.md R140: a return, executed in any state whose
stack is what the call left, resumes at the instruction after the call with the stack as before it. -/
def Obligations.CallThenReturnResumes : Prop :=
  ∀ (nnn : Addr12) (s t u : State), exec (.call nnn) s = .next t → u.stack = t.stack →
    ∃ w, exec .ret u = .next w ∧ w.pc = s.pc ∧ w.stack = s.stack ∧ OnlyChanges [.pc, .stack] u w

/-- 41_control_flow.md R144, R145: `pc` moves 2 further exactly when the register equals, or differs from, the immediate;
nothing else changes. -/
def Obligations.ImmediateSkips : Prop :=
  ∀ (x : RegIdx) (kk : Byte) (s : State),
    SpelledAs (.seImm x kk) 0x3000 0xF000 ∧ SpelledAs (.sneImm x kk) 0x4000 0xF000 ∧
    (∃ t, exec (.seImm x kk) s = .next t ∧ t.pc = (if (readReg x s).toNat = kk.toNat then s.pc + 2 else s.pc) ∧
      OnlyChanges [.pc] s t) ∧
    (∃ t, exec (.sneImm x kk) s = .next t ∧ t.pc = (if (readReg x s).toNat = kk.toNat then s.pc else s.pc + 2) ∧
      OnlyChanges [.pc] s t)

/-- 41_control_flow.md R146, R147. -/
def Obligations.RegisterSkips : Prop :=
  ∀ (x y : RegIdx) (s : State),
    SpelledAs (.seReg x y) 0x5000 0xF00F ∧ SpelledAs (.sneReg x y) 0x9000 0xF00F ∧
    (∃ t, exec (.seReg x y) s = .next t ∧
      t.pc = (if (readReg x s).toNat = (readReg y s).toNat then s.pc + 2 else s.pc) ∧ OnlyChanges [.pc] s t) ∧
    (∃ t, exec (.sneReg x y) s = .next t ∧
      t.pc = (if (readReg x s).toNat = (readReg y s).toNat then s.pc else s.pc + 2) ∧ OnlyChanges [.pc] s t)

/-! Load, arithmetic, logic, shift, random -/

/-- 42_load_alu.md R160, R161, R162: the destination takes the value, the sum modulo 256 or the source; no flag, no other
register and nothing else changes. -/
def Obligations.LoadsAndImmediateAdd : Prop :=
  ∀ (x y : RegIdx) (kk : Byte) (s : State),
    SpelledAs (.ldImm x kk) 0x6000 0xF000 ∧ SpelledAs (.addImm x kk) 0x7000 0xF000 ∧
    SpelledAs (.ldReg x y) 0x8000 0xF00F ∧
    (∃ t, exec (.ldImm x kk) s = .next t ∧ readReg x t = kk ∧ RegsKeptBut [x] s t ∧ OnlyChanges [.v] s t) ∧
    (∃ t, exec (.addImm x kk) s = .next t ∧
      (readReg x t).toNat = ((readReg x s).toNat + kk.toNat) % 256 ∧ RegsKeptBut [x] s t ∧ OnlyChanges [.v] s t) ∧
    (∃ t, exec (.ldReg x y) s = .next t ∧ readReg x t = readReg y s ∧ RegsKeptBut [x] s t ∧ OnlyChanges [.v] s t)

/-- 42_load_alu.md R163, R164, R165: each bit of the destination is the operation on the two bits there; `VF` is left alone
unless it is the destination. -/
def Obligations.BitwiseOperations : Prop :=
  ∀ (x y : RegIdx) (s : State),
    SpelledAs (.orReg x y) 0x8001 0xF00F ∧ SpelledAs (.andReg x y) 0x8002 0xF00F ∧
    SpelledAs (.xorReg x y) 0x8003 0xF00F ∧
    (∃ t, exec (.orReg x y) s = .next t ∧ RegsKeptBut [x] s t ∧ OnlyChanges [.v] s t ∧
      ∀ k, k < 8 → (readReg x t).getLsbD k = ((readReg x s).getLsbD k || (readReg y s).getLsbD k)) ∧
    (∃ t, exec (.andReg x y) s = .next t ∧ RegsKeptBut [x] s t ∧ OnlyChanges [.v] s t ∧
      ∀ k, k < 8 → (readReg x t).getLsbD k = ((readReg x s).getLsbD k && (readReg y s).getLsbD k)) ∧
    (∃ t, exec (.xorReg x y) s = .next t ∧ RegsKeptBut [x] s t ∧ OnlyChanges [.v] s t ∧
      ∀ k, k < 8 → (readReg x t).getLsbD k = ((readReg x s).getLsbD k ^^ (readReg y s).getLsbD k))

/-- 42_load_alu.md R166 and its rows of R176 (decision D7 for `VF` as an operand). -/
def Obligations.AddWritesSumAndCarry : Prop :=
  ∀ (x y : RegIdx) (s : State), SpelledAs (.addReg x y) 0x8004 0xF00F ∧
    ∃ t, exec (.addReg x y) s = .next t ∧
      (readReg x t).toNat = ((readReg x s).toNat + (readReg y s).toNat) % 256 ∧
      (x ≠ flagReg → (readReg flagReg t).toNat =
        if 255 < (readReg x s).toNat + (readReg y s).toNat then 1 else 0) ∧
      RegsKeptBut [x, flagReg] s t ∧ OnlyChanges [.v] s t

/-- 42_load_alu.md R167 and its rows of R176 (decision D7 for `VF` as an operand): a, b, f are the values before; t is the
flag. -/
def Obligations.SubtractWritesDifferenceAndFlag : Prop :=
  ∀ (x y : RegIdx) (s : State), SpelledAs (.subReg x y) 0x8005 0xF00F ∧
    ∃ t, exec (.subReg x y) s = .next t ∧
      (x ≠ flagReg → y ≠ flagReg →
        (readReg x t).toNat = (256 + (readReg x s).toNat - (readReg y s).toNat) % 256 ∧
        (readReg flagReg t).toNat = if (readReg y s).toNat < (readReg x s).toNat then 1 else 0) ∧
      (x ≠ flagReg → y = flagReg →
        (readReg x t).toNat =
          (256 + (readReg x s).toNat - (if (readReg y s).toNat < (readReg x s).toNat then 1 else 0)) % 256 ∧
        (readReg flagReg t).toNat = if (readReg y s).toNat < (readReg x s).toNat then 1 else 0) ∧
      (x = flagReg → y ≠ flagReg →
        (readReg flagReg t).toNat =
          (256 + (if (readReg y s).toNat < (readReg x s).toNat then 1 else 0) - (readReg y s).toNat) % 256) ∧
      (x = flagReg → y = flagReg → readReg flagReg t = 0#8) ∧
      RegsKeptBut [x, flagReg] s t ∧ OnlyChanges [.v] s t

/-- 42_load_alu.md R168 and its rows of R176 (decision D7 for `x = F`): `y` is ignored. -/
def Obligations.ShiftRightWritesHalfAndLowBit : Prop :=
  ∀ (x y : RegIdx) (s : State), SpelledAs (.shr x y) 0x8006 0xF00F ∧
    ∃ t, exec (.shr x y) s = .next t ∧
      (x ≠ flagReg → (readReg x t).toNat = (readReg x s).toNat / 2 ∧
        (readReg flagReg t).toNat = (readReg x s).toNat % 2) ∧
      (x = flagReg → readReg flagReg t = 0#8) ∧
      RegsKeptBut [x, flagReg] s t ∧ OnlyChanges [.v] s t

/-- 42_load_alu.md R169 and its rows of R176 (decision D7 for `VF` as an operand). -/
def Obligations.ReverseSubtractWritesDifferenceAndFlag : Prop :=
  ∀ (x y : RegIdx) (s : State), SpelledAs (.subnReg x y) 0x8007 0xF00F ∧
    ∃ t, exec (.subnReg x y) s = .next t ∧
      (x ≠ flagReg → y ≠ flagReg →
        (readReg x t).toNat = (256 + (readReg y s).toNat - (readReg x s).toNat) % 256 ∧
        (readReg flagReg t).toNat = if (readReg x s).toNat < (readReg y s).toNat then 1 else 0) ∧
      (x ≠ flagReg → y = flagReg →
        (readReg x t).toNat =
          (256 + (if (readReg x s).toNat < (readReg y s).toNat then 1 else 0) - (readReg x s).toNat) % 256 ∧
        (readReg flagReg t).toNat = if (readReg x s).toNat < (readReg y s).toNat then 1 else 0) ∧
      (x = flagReg → y ≠ flagReg →
        (readReg flagReg t).toNat =
          (256 + (readReg y s).toNat - (if (readReg x s).toNat < (readReg y s).toNat then 1 else 0)) % 256) ∧
      (x = flagReg → y = flagReg → readReg flagReg t = 0#8) ∧
      RegsKeptBut [x, flagReg] s t ∧ OnlyChanges [.v] s t

/-- 42_load_alu.md R170 and its rows of R176 (decision D7 for `x = F`): `y` is ignored. -/
def Obligations.ShiftLeftWritesDoubleAndHighBit : Prop :=
  ∀ (x y : RegIdx) (s : State), SpelledAs (.shl x y) 0x800E 0xF00F ∧
    ∃ t, exec (.shl x y) s = .next t ∧
      (x ≠ flagReg → (readReg x t).toNat = 2 * (readReg x s).toNat % 256 ∧
        (readReg flagReg t).toNat = (readReg x s).toNat / 128) ∧
      (x = flagReg → (readReg flagReg t).toNat = if 128 ≤ (readReg x s).toNat then 2 else 0) ∧
      RegsKeptBut [x, flagReg] s t ∧ OnlyChanges [.v] s t

/-- 42_load_alu.md R171, 46_external_interfaces.md R238 (decision D14): exactly one byte is drawn, whatever it is, and the
destination holds it masked, so no bit outside the mask is ever set. The byte is an input (log 2), the request record the
model's own (log 5). -/
def Obligations.RandomByteIsMasked : Prop :=
  ∀ (x : RegIdx) (kk : Byte) (s : State), SpelledAs (.rnd x kk) 0xC000 0xF000 ∧
    ∃ t, exec (.rnd x kk) s = .next t ∧
      (∀ k, k < 8 → (readReg x t).getLsbD k = ((currentInput s).randomByte.getLsbD k && kk.getLsbD k)) ∧
      readReg x t &&& ~~~kk = 0#8 ∧ t.requests = s.requests ++ [.randomByte] ∧
      RegsKeptBut [x] s t ∧ OnlyChanges [.v, .requests] s t

/-! Index register and memory -/

/-- 43_index_memory.md R180, R182: `I` takes the 12-bit value, or five times the whole register. -/
def Obligations.IndexLoads : Prop :=
  ∀ (nnn : Addr12) (x : RegIdx) (s : State),
    SpelledAs (.ldI nnn) 0xA000 0xF000 ∧ SpelledAs (.ldF x) 0xF029 0xF0FF ∧
    (∃ t, exec (.ldI nnn) s = .next t ∧ t.i.toNat = nnn.toNat ∧ OnlyChanges [.i] s t) ∧
    (∃ t, exec (.ldF x) s = .next t ∧ t.i.toNat = 5 * (readReg x s).toNat ∧ OnlyChanges [.i] s t)

/-- 43_index_memory.md R181 (decision D4): 16-bit wrap, `VF` untouched. -/
def Obligations.IndexAddWraps : Prop :=
  ∀ (x : RegIdx) (s : State), SpelledAs (.addI x) 0xF01E 0xF0FF ∧
    ∃ t, exec (.addI x) s = .next t ∧ t.i.toNat = (s.i.toNat + (readReg x s).toNat) % 65536 ∧
      OnlyChanges [.i] s t

/-- 43_index_memory.md R183, 20_memory.md R79: the three decimal digits, hundreds first, at the addresses the meaning
computes; no other byte changes. Out of range it faults at the lowest address. -/
def Obligations.BcdStoresThreeDigits : Prop :=
  ∀ (x : RegIdx) (s : State), SpelledAs (.ldB x) 0xF033 0xF0FF ∧
    (dataAddr 2 s < memSize → ∃ t, exec (.ldB x) s = .next t ∧
      (byteAt (dataAddr 0 s) t).toNat ≤ 2 ∧ (byteAt (dataAddr 1 s) t).toNat ≤ 9 ∧
      (byteAt (dataAddr 2 s) t).toNat ≤ 9 ∧
      100 * (byteAt (dataAddr 0 s) t).toNat + 10 * (byteAt (dataAddr 1 s) t).toNat +
        (byteAt (dataAddr 2 s) t).toNat = (readReg x s).toNat ∧
      (∀ a, (a < dataAddr 0 s ∨ dataAddr 2 s < a) → byteAt a t = byteAt a s) ∧ OnlyChanges [.mem] s t) ∧
    (memSize ≤ dataAddr 2 s → exec (.ldB x) s = .fault (.outOfRange (max s.i.toNat memSize)))

/-- 43_index_memory.md R184, 20_memory.md R79. -/
def Obligations.RegisterBlockIsStored : Prop :=
  ∀ (x : RegIdx) (s : State), SpelledAs (.stRegs x) 0xF055 0xF0FF ∧
    (dataAddr x.val s < memSize → ∃ t, exec (.stRegs x) s = .next t ∧
      (∀ k : RegIdx, k ≤ x → byteAt (dataAddr k.val s) t = readReg k s) ∧
      (∀ a, (a < dataAddr 0 s ∨ dataAddr x.val s < a) → byteAt a t = byteAt a s) ∧ OnlyChanges [.mem] s t) ∧
    (memSize ≤ dataAddr x.val s → exec (.stRegs x) s = .fault (.outOfRange (max s.i.toNat memSize)))

/-- 43_index_memory.md R185, 20_memory.md R79. -/
def Obligations.RegisterBlockIsLoaded : Prop :=
  ∀ (x : RegIdx) (s : State), SpelledAs (.ldRegs x) 0xF065 0xF0FF ∧
    (dataAddr x.val s < memSize → ∃ t, exec (.ldRegs x) s = .next t ∧
      (∀ k : RegIdx, k ≤ x → readReg k t = byteAt (dataAddr k.val s) s) ∧
      (∀ k : RegIdx, x < k → readReg k t = readReg k s) ∧ OnlyChanges [.v] s t) ∧
    (memSize ≤ dataAddr x.val s → exec (.ldRegs x) s = .fault (.outOfRange (max s.i.toNat memSize)))

/-- 20_memory.md R75: a block stored over the place of the next fetch is what that fetch reads. -/
def Obligations.StoreIsSeenByTheNextFetch : Prop :=
  ∀ (x : RegIdx) (s t u : State), 1 ≤ x.val → exec (.stRegs x) s = .next t →
    u.mem = t.mem → u.config = t.config → u.pc.toNat = dataAddr 0 s →
    fetchWord u = .ok (wordOfBytes (readReg 0 s) (readReg 1 s))

/-! Display -/

/-- 44_display.md R200, 46_external_interfaces.md R231, R233: one clear request, every pixel off, no flag.
The display in State and the request record are the model's choice (log 4, log 5). -/
def Obligations.ClearBlanksTheDisplay : Prop :=
  SpelledAs .cls 0x00E0 0xFFFF ∧ ∀ s : State, ∃ t, exec .cls s = .next t ∧
    (∀ c r, pixelAt c r t = false) ∧ t.requests = s.requests ++ [.clear] ∧ OnlyChanges [.fb, .requests] s t

/-- 44_display.md R201, R202, R203 (decisions D8 and D9), 46_external_interfaces.md R232, R233: exactly the pixels under a 1
bit of the sprite are flipped, and `VF` says whether one of them was on; with `n = 0`, or all rows inside memory, the
instruction completes. Both coordinates are those of the state before it. Otherwise it faults at the lowest address out of
range (20_memory.md R79), which is the spec's decision D28 (log 10). -/
def Obligations.DrawFlipsExactlyTheCoveredPixels : Prop :=
  ∀ (x y : RegIdx) (n : Fin 16) (s : State), SpelledAs (.drw x y n) 0xD000 0xF000 ∧
    (n.val = 0 ∨ dataAddr n.val s ≤ memSize → ∃ t, exec (.drw x y n) s = .next t ∧
      (∀ c r, c < 64 → r < 32 → Covered s (readReg x s).toNat (readReg y s).toNat n.val c r →
        pixelAt c r t = !pixelAt c r s) ∧
      (∀ c r, c < 64 → r < 32 → ¬ Covered s (readReg x s).toNat (readReg y s).toNat n.val c r →
        pixelAt c r t = pixelAt c r s) ∧
      ((∃ c r, Covered s (readReg x s).toNat (readReg y s).toNat n.val c r ∧ pixelAt c r s = true) →
        readReg flagReg t = 1#8) ∧
      ((¬ ∃ c r, Covered s (readReg x s).toNat (readReg y s).toNat n.val c r ∧ pixelAt c r s = true) →
        readReg flagReg t = 0#8) ∧
      RegsKeptBut [flagReg] s t ∧ OnlyChanges [.v, .fb, .requests] s t) ∧
    (n.val ≠ 0 → memSize < dataAddr n.val s →
      exec (.drw x y n) s = .fault (.outOfRange (max s.i.toNat memSize)))

/-- 44_display.md R201 (decisions D8, D9): one request for each 1 bit, rows ascending, columns ascending, with the plain
sums as coordinates. The request record is the model's own (log 5). -/
def Obligations.DrawRequestsEachPixelInOrder : Prop :=
  ∀ (x y : RegIdx) (n : Fin 16) (s t : State), exec (.drw x y n) s = .next t →
    t.requests = s.requests ++ (List.range n.val).flatMap (fun row =>
      ((List.range 8).filter (fun col => (byteAt (s.i.toNat + row) s).getLsbD (7 - col))).map
        (fun col => PortRequest.setPixel ((readReg x s).toNat + col) ((readReg y s).toNat + row)))

/-- 44_display.md R204: the same sprite at coordinates that agree modulo 64 and 32 flips the same pixels and writes the same
flag. -/
def Obligations.DrawWrapsAtTheEdges : Prop :=
  ∀ (x y : RegIdx) (n : Fin 16) (s u t w : State),
    (∀ a, byteAt a u = byteAt a s) → (∀ c r, pixelAt c r u = pixelAt c r s) → u.i = s.i →
    (readReg x u).toNat % 64 = (readReg x s).toNat % 64 → (readReg y u).toNat % 32 = (readReg y s).toNat % 32 →
    exec (.drw x y n) s = .next t → exec (.drw x y n) u = .next w →
    (∀ c r, pixelAt c r w = pixelAt c r t) ∧ readReg flagReg w = readReg flagReg t

/-- 44_display.md R201 (c), read by R201's own pseudocode (log 12): drawing the same sprite again at the same place restores
the display, and reports a collision exactly when a pixel under a 1 bit was off before the first draw. `VF` as a coordinate
is excluded because the first draw overwrites it. -/
def Obligations.DrawTwiceRestoresTheDisplay : Prop :=
  ∀ (x y : RegIdx) (n : Fin 16) (s t : State), x ≠ flagReg → y ≠ flagReg → exec (.drw x y n) s = .next t →
    ∃ u, exec (.drw x y n) t = .next u ∧ (∀ c r, pixelAt c r u = pixelAt c r s) ∧
      ((∃ c r, Covered s (readReg x s).toNat (readReg y s).toNat n.val c r ∧ pixelAt c r s = false) →
        readReg flagReg u = 1#8) ∧
      ((¬ ∃ c r, Covered s (readReg x s).toNat (readReg y s).toNat n.val c r ∧ pixelAt c r s = false) →
        readReg flagReg u = 0#8)

/-! Keypad and timers -/

/-- 45_keypad_timers.md R210, R211, 46_external_interfaces.md R235 (decision D13): the keypad is asked once, with the whole
register as the code; for a code up to 15 its answer is the level of that key, above 15 it is a free value; the two
instructions skip on opposite answers. The levels and the free answer are the model's inputs (log 2, log 3). -/
def Obligations.KeySkips : Prop :=
  ∀ (x : RegIdx) (s : State),
    SpelledAs (.skp x) 0xE09E 0xF0FF ∧ SpelledAs (.sknp x) 0xE0A1 0xF0FF ∧
    ∃ reply : Bool,
      (∀ h : (readReg x s).toNat < 16, reply = (currentInput s).keysDown[(readReg x s).toNat]) ∧
      (16 ≤ (readReg x s).toNat → reply = (currentInput s).replyAbove15) ∧
      (∃ t, exec (.skp x) s = .next t ∧ t.pc = (if reply then s.pc + 2 else s.pc) ∧
        t.requests = s.requests ++ [.isPressed (readReg x s)] ∧ OnlyChanges [.pc, .requests] s t) ∧
      (∃ t, exec (.sknp x) s = .next t ∧ t.pc = (if reply then s.pc else s.pc + 2) ∧
        t.requests = s.requests ++ [.isPressed (readReg x s)] ∧ OnlyChanges [.pc, .requests] s t)

/-- 45_keypad_timers.md R212: the wait is latched; no register is written yet and `pc` stays past the instruction. -/
def Obligations.KeyWaitPauses : Prop :=
  ∀ (x : RegIdx) (s : State), SpelledAs (.ldVxK x) 0xF00A 0xF0FF ∧
    ∃ t, exec (.ldVxK x) s = .next t ∧ t.paused = true ∧ t.kwx = x ∧ OnlyChanges [.paused, .kwx] s t

/-- 45_keypad_timers.md R213, R214, R215: the moves between a register and the timers, before the timer step of the tick. -/
def Obligations.TimerMoves : Prop :=
  ∀ (x : RegIdx) (s : State),
    SpelledAs (.ldVxDT x) 0xF007 0xF0FF ∧ SpelledAs (.ldDTVx x) 0xF015 0xF0FF ∧ SpelledAs (.ldSTVx x) 0xF018 0xF0FF ∧
    (∃ t, exec (.ldVxDT x) s = .next t ∧ readReg x t = s.dt ∧ RegsKeptBut [x] s t ∧ OnlyChanges [.v] s t) ∧
    (∃ t, exec (.ldDTVx x) s = .next t ∧ t.dt = readReg x s ∧ OnlyChanges [.dt] s t) ∧
    (∃ t, exec (.ldSTVx x) s = .next t ∧ t.st = readReg x s ∧ OnlyChanges [.st] s t)

/-! Frames and the host port -/

/-- 40_engine_cycle.md R127 (decision D29), R129 (decision D1), 46_external_interfaces.md R234, R237, R241: a frame is `SPEED`
steps of the machine, then one audio update and one present request; where one of the steps faults, the frame reports the
fault with `FAULT` latched, the tone and the configuration as before. What requests such a frame has made is
`FaultingFrameMakesNoAudioAndNoPresentRequest`. The request record (log 5), `frameStarted` and `midFrame` (log 8) are the
model's own; what the halted core holds besides is an argument under no law (log 9). -/
def Obligations.FrameIsSpeedStepsThenAudioAndPresent : Prop :=
  ∀ u s : State, s.fault = none →
    (∀ t : State, Sys2Proof.core.run s.config.speed s = .next t → ∃ w, runFrame u s = .done w ∧
      w.requests = t.requests ++
        [if 0 < t.st.toNat then .play s.config.audioFreqHz else .stop, .present] ∧
      w.tone = decide (0 < t.st.toNat) ∧ w.frameStarted = true ∧
      w.midFrame = false ∧ OnlyChanges [.requests, .tone, .frameStarted, .midFrame] t w) ∧
    (∀ f : Fault, Sys2Proof.core.run s.config.speed s = .fault f → ∃ w, runFrame u s = .reported f w ∧
      w.fault = some f ∧ w.tone = s.tone ∧ w.config = s.config)

/-- 10_state.md R39, 46_external_interfaces.md R242 (decision D1): after a frame has reported a fault, whatever the halted
core holds besides, every step does nothing and every frame reports the same fault. -/
def Obligations.ReportedFaultIsSticky : Prop :=
  ∀ (u s t : State) (f : Fault), runFrame u s = .reported f t →
    t.fault = some f ∧ step t = .next t ∧ ∀ w, runFrame w t = .reported f t

/-- 46_external_interfaces.md R240 (decision D23), 60_exceptions.md R264. The canonical form of memory and the record of a
frame begun are the model's own (log 13, log 8). -/
def Obligations.LoadProgramCopiesTheImage : Prop :=
  ∀ (bytes : List Byte) (s : State),
    (s.frameStarted = false → 0x200 + bytes.length ≤ 4096 → ∃ t, loadProgram bytes s = .done t ∧
      (∀ (k : Nat) (h : k < bytes.length), byteAt (0x200 + k) t = bytes[k]) ∧
      (∀ a, (a < 0x200 ∨ 0x200 + bytes.length ≤ a) → byteAt a t = byteAt a s) ∧ OnlyChanges [.mem] s t ∧
      (Memory.wf s.config.font s.mem → Memory.wf t.config.font t.mem)) ∧
    (s.frameStarted = false → 4096 < 0x200 + bytes.length →
      loadProgram bytes s = .reported (.programTooLarge bytes.length) s) ∧
    (s.frameStarted = true → loadProgram bytes s = .refused .loadOutsideBoot)

/-- 46_external_interfaces.md R243 (decision D24), 60_exceptions.md R265: between frames the register accessors reach exactly
the indices 0 to 15, and a bad index, negative ones included, is reported and changes nothing; inside a frame they are
refused. The record of a frame in progress is the model's own (log 8). -/
def Obligations.RegisterAccessorsCheckTheIndex : Prop :=
  ∀ (idx : Int) (b : Byte) (s : State),
    (s.midFrame = false → ∀ x : RegIdx, idx = x.val → hostGetReg idx s = .value (readReg x s) ∧
      ∃ t, hostSetReg idx b s = .done t ∧ hostGetReg idx t = .value b ∧ RegsKeptBut [x] s t ∧ OnlyChanges [.v] s t) ∧
    (s.midFrame = false → idx < 0 ∨ 16 ≤ idx → hostGetReg idx s = .reported (.invalidRegister idx) ∧
      hostSetReg idx b s = .reported (.invalidRegister idx) s) ∧
    (s.midFrame = true → hostGetReg idx s = .refused .accessDuringFrame ∧
      hostSetReg idx b s = .refused .accessDuringFrame)

/-! The whole machine -/

/-- The frame of every instruction at once: 10_state.md R24, R26, R29, R33 to R38, 20_memory.md R60, R69: an instruction
that completes changes only the parts of the state, the registers and the bytes of memory that its rule names. That `KWX` is
kept while no wait is pending is the model's choice (10_state.md R38, log 7). -/
def Obligations.EveryInstructionWritesOnlyItsOwnParts : Prop :=
  ∀ (i : Instr) (s t : State), exec i s = .next t →
    OnlyChanges (partsWritten i) s t ∧ RegsKeptBut (regsWritten i) s t ∧
    ∀ a, ¬ Stores i s a → byteAt a t = byteAt a s

/-- 60_exceptions.md R261, R262, R266, R267, 20_memory.md R79: an instruction faults exactly where the rules say, with the
information they say, and none is ever refused; everywhere else it completes. The overflow is the spec's decision D3, the
lowest address out of range its decision D28 (log 10). -/
def Obligations.InstructionsFaultExactlyWhereTheRulesSay : Prop :=
  ∀ (i : Instr) (s : State),
    (∀ f, exec i s = .fault f ↔ RaisesFault i s f) ∧ (∀ r, exec i s ≠ .refused r) ∧
    ((∀ f, ¬ RaisesFault i s f) → ∃ t, exec i s = .next t)

/-- 60_exceptions.md R260, R264, R265, 10_state.md R23, 46_external_interfaces.md R245: a step never raises a fault of the
host port and is never refused; an address it reports lies outside memory and fits 16 bits. -/
def Obligations.StepRaisesOnlyTheCoresFaults : Prop :=
  ∀ s : State, (∀ r, step s ≠ .refused r) ∧
    ∀ f, step s = .fault f →
      (∃ a, f = .outOfRange a ∧ 4096 ≤ a ∧ a ≤ 0xFFFF) ∨ f = .stackUnderflow ∨ (∃ w, f = .unknownOpcode w) ∨
      f = .stackOverflow

/-- 10_state.md R20, R41, 40_engine_cycle.md R127: no step changes the configuration or the tone, and none latches `FAULT`
and goes on. -/
def Obligations.StepKeepsConfigurationAndTone : Prop :=
  ∀ s t : State, step s = .next t → t.config = s.config ∧ t.tone = s.tone ∧ t.fault = s.fault

/-- 10_state.md R37, R40: a running core comes to wait by `Fx0A` and by nothing else. -/
def Obligations.OnlyTheKeyWaitPauses : Prop :=
  ∀ s t : State, Running s → step s = .next t → (t.paused = true ↔ ∃ x, Fetches (.ldVxK x) s ∧ t.kwx = x)

/-! What a faulting frame has sent, the other accessors, and where a result is read -/

/-- 40_engine_cycle.md R129 (decision D1), 60_exceptions.md R272 (decision D2): a frame that faults has completed some ticks and
faulted in the next; the requests recorded are those of the completed ticks and, after them, at most `setPixel` calls of the
faulting tick's own `Dxyn`, for 1 bits of its rows inside memory; no audio update and no present request. Which of those calls
were made is unspecified (log 9). The request record (log 5) and `midFrame` (log 8) are the model's own. -/
def Obligations.FaultingFrameMakesNoAudioAndNoPresentRequest : Prop :=
  ∀ (u s w : State) (f : Fault), s.fault = none → runFrame u s = .reported f w →
    ∃ (k : Nat) (t v : State) (calls : List PortRequest), k < s.config.speed ∧
      Sys2Proof.core.run k s = .next t ∧ step t = .fault f ∧ v = deliverKeys (currentInput t).keyPresses t ∧
      w.requests = t.requests ++ calls ∧
      (∀ q ∈ calls, ∃ (x y : RegIdx) (n : Fin 16) (row col : Nat), Fetches (.drw x y n) v ∧ row < n.val ∧
        dataAddr row v < memSize ∧ col < 8 ∧ (byteAt (dataAddr row v) v).getLsbD (7 - col) = true ∧
        q = .setPixel ((readReg x v).toNat + col) ((readReg y v).toNat + row)) ∧
      w.midFrame = false

/-- 46_external_interfaces.md R243 (decision D24), 20_memory.md R61, R62, R71: between frames the memory accessors reach exactly
the addresses 0 to 4095; an address above or below is reported and changes nothing; inside a frame they are refused. The record
of a frame in progress is the model's own (log 8). -/
def Obligations.MemoryAccessorsCheckTheAddress : Prop :=
  ∀ (a : Int) (b : Byte) (s : State),
    (s.midFrame = false → ∀ n : Nat, n < 4096 → a = n → hostRead a s = .value (byteAt n s) ∧
      ∃ t, hostWrite a b s = .done t ∧ hostRead a t = .value b ∧ (∀ c, c ≠ n → byteAt c t = byteAt c s) ∧
        OnlyChanges [.mem] s t) ∧
    (s.midFrame = false → ∀ n : Nat, 4096 ≤ n → a = n → hostRead a s = .reported (.outOfRange n) ∧
      hostWrite a b s = .reported (.outOfRange n) s) ∧
    (s.midFrame = false → a < 0 → hostRead a s = .reported (.outOfRangeBelowZero a) ∧
      hostWrite a b s = .reported (.outOfRangeBelowZero a) s) ∧
    (s.midFrame = true → hostRead a s = .refused .accessDuringFrame ∧ hostWrite a b s = .refused .accessDuringFrame)

/-- 46_external_interfaces.md R243 (decision D24): between frames the timer accessors read and set the timers; inside a frame
they are refused, so after any tick of a frame, which leaves the frame in progress. The record of a frame in progress is the
model's own (log 8). -/
def Obligations.TimerAccessorsActBetweenFrames : Prop :=
  ∀ (b : Byte) (s : State),
    (s.midFrame = false → hostGetTimers s = .value (s.dt, s.st) ∧
      (∃ t, hostSetDelay b s = .done t ∧ t.dt = b ∧ OnlyChanges [.dt] s t) ∧
      (∃ t, hostSetSound b s = .done t ∧ t.st = b ∧ OnlyChanges [.st] s t)) ∧
    (s.midFrame = true → hostGetTimers s = .refused .accessDuringFrame ∧
      hostSetDelay b s = .refused .accessDuringFrame ∧ hostSetSound b s = .refused .accessDuringFrame) ∧
    (∀ t, s.fault = none → step s = .next t → hostGetTimers t = .refused .accessDuringFrame)

/-- 40_engine_cycle.md R130: the definition the rule asks the model for. The result of a program is read in the first state, from
the start on, in which a running core's `pc` is the address of the idle loop; a run that faults first has none. That the core
must be running there, and not waiting, is the model's choice (log 15). -/
def Obligations.ResultIsReadAtTheFirstArrival : Prop :=
  ∀ (a : Word) (n : Nat) (s t : State), resultState a n s = some t ↔
    ∃ k, k ≤ n ∧ Sys2Proof.core.run k s = .next t ∧ t.pc = a ∧ Running t ∧
      ∀ (j : Nat) (u : State), j < k → Sys2Proof.core.run j s = .next u → ¬ (Running u ∧ u.pc = a)
end

