-- ==== Sys2Proof/Laws/Decode.lean ====
section
/-! SUPPORT. The fields of a packed word are the fields packed, and a word is the pack of its fields. -/

namespace Sys2Proof

/-! The library's lemma on appended vectors at the widths used here, where the sum of the widths is written as one
number. -/

theorem bit_append_4_12 (a : BitVec 4) (b : BitVec 12) (i : Nat) :
    (a ++ b : BitVec 16).getLsbD i = if i < 12 then b.getLsbD i else a.getLsbD (i - 12) := by
  simpa [cond_eq_ite] using BitVec.getLsbD_append (x := a) (y := b) (i := i)

theorem bit_append_4_4 (a b : BitVec 4) (i : Nat) :
    (a ++ b : BitVec 8).getLsbD i = if i < 4 then b.getLsbD i else a.getLsbD (i - 4) := by
  simpa [cond_eq_ite] using BitVec.getLsbD_append (x := a) (y := b) (i := i)

theorem bit_append_8_8 (a b : BitVec 8) (i : Nat) :
    (a ++ b : BitVec 16).getLsbD i = if i < 8 then b.getLsbD i else a.getLsbD (i - 8) := by
  simpa [cond_eq_ite] using BitVec.getLsbD_append (x := a) (y := b) (i := i)

theorem bit_append_8_4 (a : BitVec 8) (b : BitVec 4) (i : Nat) :
    (a ++ b : BitVec 12).getLsbD i = if i < 4 then b.getLsbD i else a.getLsbD (i - 4) := by
  simpa [cond_eq_ite] using BitVec.getLsbD_append (x := a) (y := b) (i := i)

theorem bit_append_12_4 (a : BitVec 12) (b : BitVec 4) (i : Nat) :
    (a ++ b : BitVec 16).getLsbD i = if i < 4 then b.getLsbD i else a.getLsbD (i - 4) := by
  simpa [cond_eq_ite] using BitVec.getLsbD_append (x := a) (y := b) (i := i)

/-- Bit `i` of each pack. -/
theorem bit_packNNN (op : BitVec 4) (nnn : Addr12) (i : Nat) :
    (packNNN op nnn).getLsbD i = if i < 12 then nnn.getLsbD i else op.getLsbD (i - 12) :=
  bit_append_4_12 op nnn i

theorem bit_packXKK (op : BitVec 4) (x : RegIdx) (kk : Byte) (i : Nat) :
    (packXKK op x kk).getLsbD i =
      if i < 8 then kk.getLsbD i
      else if i < 12 then (BitVec.ofFin x : BitVec 4).getLsbD (i - 8) else op.getLsbD (i - 12) := by
  rw [packXKK, bit_append_8_8, bit_append_4_4, Nat.sub_sub]
  by_cases h : i < 8
  · simp [h]
  · have h1 : (i - 8 < 4) = (i < 12) := propext (by omega)
    simp [h, h1]

theorem bit_packXYN (op : BitVec 4) (x y : RegIdx) (n : BitVec 4) (i : Nat) :
    (packXYN op x y n).getLsbD i =
      if i < 4 then n.getLsbD i
      else if i < 8 then (BitVec.ofFin y : BitVec 4).getLsbD (i - 4)
      else if i < 12 then (BitVec.ofFin x : BitVec 4).getLsbD (i - 8) else op.getLsbD (i - 12) := by
  rw [packXYN, bit_append_12_4, bit_append_8_4, bit_append_4_4, Nat.sub_sub, Nat.sub_sub]
  by_cases h : i < 4
  · simp [h]
  · have h1 : (i - 4 < 4) = (i < 8) := propext (by omega)
    by_cases h8 : i < 8
    · simp [h, h8, h1]
    · have h2 : (i - 8 < 4) = (i < 12) := propext (by omega)
      simp [h, h8, h1, h2]

theorem bit_wordOfBytes (hi lo : Byte) (i : Nat) :
    (wordOfBytes hi lo).getLsbD i = if i < 8 then lo.getLsbD i else hi.getLsbD (i - 8) :=
  bit_append_8_8 hi lo i

/-! Bit `i` of each field. -/

theorem bit_opField (w : Word) (i : Nat) : (opField w).getLsbD i = (decide (i < 4) && w.getLsbD (12 + i)) := by
  simp [opField]

theorem bit_nField (w : Word) (i : Nat) : (nField w).getLsbD i = (decide (i < 4) && w.getLsbD i) := by
  simp [nField]

theorem bit_kkField (w : Word) (i : Nat) : (kkField w).getLsbD i = (decide (i < 8) && w.getLsbD i) := by
  simp [kkField]

theorem bit_nnnField (w : Word) (i : Nat) : (nnnField w).getLsbD i = (decide (i < 12) && w.getLsbD i) := by
  simp [nnnField]

theorem bit_xField (w : Word) (i : Nat) :
    (BitVec.ofFin (xField w) : BitVec 4).getLsbD i = (decide (i < 4) && w.getLsbD (8 + i)) := by
  have : (BitVec.ofFin (xField w) : BitVec 4) = w.extractLsb' 8 4 := rfl
  rw [this]
  simp

theorem bit_yField (w : Word) (i : Nat) :
    (BitVec.ofFin (yField w) : BitVec 4).getLsbD i = (decide (i < 4) && w.getLsbD (4 + i)) := by
  have : (BitVec.ofFin (yField w) : BitVec 4) = w.extractLsb' 4 4 := rfl
  rw [this]
  simp

theorem bit_hiByte (w : Word) (i : Nat) : (hiByte w).getLsbD i = (decide (i < 8) && w.getLsbD (8 + i)) := by
  simp [hiByte]

theorem bit_loByte (w : Word) (i : Nat) : (loByte w).getLsbD i = (decide (i < 8) && w.getLsbD i) := by
  simp [loByte]

/-- A register index is the four bits it stands for. -/
theorem regIdx_eq_of_bits {x y : RegIdx}
    (h : ∀ i, i < 4 → (BitVec.ofFin x : BitVec 4).getLsbD i = (BitVec.ofFin y : BitVec 4).getLsbD i) : x = y := by
  have : (BitVec.ofFin x : BitVec 4) = BitVec.ofFin y := BitVec.eq_of_getLsbD_eq h
  injection this

/-! Format NNN. -/

@[simp] theorem opField_packNNN (op : BitVec 4) (nnn : Addr12) : opField (packNNN op nnn) = op := by
  apply BitVec.eq_of_getLsbD_eq
  intro i h
  rw [bit_opField, bit_packNNN]
  simp [h]

@[simp] theorem nnnField_packNNN (op : BitVec 4) (nnn : Addr12) : nnnField (packNNN op nnn) = nnn := by
  apply BitVec.eq_of_getLsbD_eq
  intro i h
  rw [bit_nnnField, bit_packNNN]
  simp [h]

theorem packNNN_fields (w : Word) : packNNN (opField w) (nnnField w) = w := by
  apply BitVec.eq_of_getLsbD_eq
  intro i h
  rw [bit_packNNN, bit_opField, bit_nnnField]
  by_cases h12 : i < 12
  · simp [h12]
  · have h1 : i - 12 < 4 := by omega
    have h2 : 12 + (i - 12) = i := by omega
    simp only [h12, h1, h2, if_false, decide_true, Bool.true_and]

/-! Formats XKK and X. -/

@[simp] theorem opField_packXKK (op : BitVec 4) (x : RegIdx) (kk : Byte) : opField (packXKK op x kk) = op := by
  apply BitVec.eq_of_getLsbD_eq
  intro i h
  have h1 : ¬ 12 + i < 8 := by omega
  rw [bit_opField, bit_packXKK]
  simp [h, h1]

@[simp] theorem xField_packXKK (op : BitVec 4) (x : RegIdx) (kk : Byte) : xField (packXKK op x kk) = x := by
  apply regIdx_eq_of_bits
  intro i h
  have h1 : 8 + i < 12 := by omega
  rw [bit_xField, bit_packXKK]
  simp [h, h1]

@[simp] theorem kkField_packXKK (op : BitVec 4) (x : RegIdx) (kk : Byte) : kkField (packXKK op x kk) = kk := by
  apply BitVec.eq_of_getLsbD_eq
  intro i h
  rw [bit_kkField, bit_packXKK]
  simp [h]

theorem packXKK_fields (w : Word) : packXKK (opField w) (xField w) (kkField w) = w := by
  apply BitVec.eq_of_getLsbD_eq
  intro i h
  rw [bit_packXKK, bit_opField, bit_xField, bit_kkField]
  by_cases h8 : i < 8
  · simp [h8]
  · by_cases h12 : i < 12
    · have h1 : i - 8 < 4 := by omega
      have h2 : 8 + (i - 8) = i := by omega
      simp only [h8, h12, h1, h2, if_false, if_true, decide_true, Bool.true_and]
    · have h1 : i - 12 < 4 := by omega
      have h2 : 12 + (i - 12) = i := by omega
      simp only [h8, h12, h1, h2, if_false, decide_true, Bool.true_and]

/-! Formats XY and XYN. -/

@[simp] theorem opField_packXYN (op : BitVec 4) (x y : RegIdx) (n : BitVec 4) : opField (packXYN op x y n) = op := by
  apply BitVec.eq_of_getLsbD_eq
  intro i h
  have h1 : ¬ 12 + i < 4 := by omega
  have h2 : ¬ 12 + i < 8 := by omega
  rw [bit_opField, bit_packXYN]
  simp [h, h1, h2]

@[simp] theorem xField_packXYN (op : BitVec 4) (x y : RegIdx) (n : BitVec 4) : xField (packXYN op x y n) = x := by
  apply regIdx_eq_of_bits
  intro i h
  have h1 : ¬ 8 + i < 4 := by omega
  have h2 : 8 + i < 12 := by omega
  rw [bit_xField, bit_packXYN]
  simp [h, h1, h2]

@[simp] theorem yField_packXYN (op : BitVec 4) (x y : RegIdx) (n : BitVec 4) : yField (packXYN op x y n) = y := by
  apply regIdx_eq_of_bits
  intro i h
  have h1 : 4 + i < 8 := by omega
  rw [bit_yField, bit_packXYN]
  simp [h, h1]

@[simp] theorem nField_packXYN (op : BitVec 4) (x y : RegIdx) (n : BitVec 4) : nField (packXYN op x y n) = n := by
  apply BitVec.eq_of_getLsbD_eq
  intro i h
  rw [bit_nField, bit_packXYN]
  simp [h]

theorem packXYN_fields (w : Word) : packXYN (opField w) (xField w) (yField w) (nField w) = w := by
  apply BitVec.eq_of_getLsbD_eq
  intro i h
  rw [bit_packXYN, bit_opField, bit_xField, bit_yField, bit_nField]
  by_cases h4 : i < 4
  · simp [h4]
  · by_cases h8 : i < 8
    · have h1 : i - 4 < 4 := by omega
      have h2 : 4 + (i - 4) = i := by omega
      simp only [h4, h8, h1, h2, if_false, if_true, decide_true, Bool.true_and]
    · by_cases h12 : i < 12
      · have h1 : i - 8 < 4 := by omega
        have h2 : 8 + (i - 8) = i := by omega
        simp only [h4, h8, h12, h1, h2, if_false, if_true, decide_true, Bool.true_and]
      · have h1 : i - 12 < 4 := by omega
        have h2 : 12 + (i - 12) = i := by omega
        simp only [h4, h8, h12, h1, h2, if_false, decide_true, Bool.true_and]

/-! A word and its two bytes. -/

@[simp] theorem wordOfBytes_hi_lo (w : Word) : wordOfBytes (hiByte w) (loByte w) = w := by
  apply BitVec.eq_of_getLsbD_eq
  intro i h
  rw [bit_wordOfBytes, bit_hiByte, bit_loByte]
  by_cases h8 : i < 8
  · simp [h8]
  · have h1 : i - 8 < 8 := by omega
    have h2 : 8 + (i - 8) = i := by omega
    simp only [h8, h1, h2, if_false, decide_true, Bool.true_and]

@[simp] theorem hiByte_wordOfBytes (hi lo : Byte) : hiByte (wordOfBytes hi lo) = hi := by
  apply BitVec.eq_of_getLsbD_eq
  intro i h
  rw [bit_hiByte, bit_wordOfBytes]
  simp [h]

@[simp] theorem loByte_wordOfBytes (hi lo : Byte) : loByte (wordOfBytes hi lo) = lo := by
  apply BitVec.eq_of_getLsbD_eq
  intro i h
  rw [bit_loByte, bit_wordOfBytes]
  simp [h]

/-- The value of a word from its bytes: `(hi << 8) | lo` (20_memory.md R66). -/
theorem wordOfBytes_toNat (hi lo : Byte) : (wordOfBytes hi lo).toNat = 256 * hi.toNat + lo.toNat := by
  have h : (wordOfBytes hi lo).toNat = hi.toNat <<< 8 ||| lo.toNat := BitVec.toNat_append hi lo
  rw [h, ← Nat.shiftLeft_add_eq_or_of_lt lo.isLt, Nat.shiftLeft_eq]
  omega

end Sys2Proof
end

