-- ==== Sys2Proof/Laws/State.lean ====
section
/-! SUPPORT. One lemma per field per update, true by rfl, so that no proof unfolds a record update. -/

namespace Sys2Proof.Machine

/-! `setI` -/

@[simp] theorem setI_v (a : Word) (s : State) : (setI a s).v = s.v := rfl
@[simp] theorem setI_i (a : Word) (s : State) : (setI a s).i = a := rfl
@[simp] theorem setI_pc (a : Word) (s : State) : (setI a s).pc = s.pc := rfl
@[simp] theorem setI_dt (a : Word) (s : State) : (setI a s).dt = s.dt := rfl
@[simp] theorem setI_st (a : Word) (s : State) : (setI a s).st = s.st := rfl
@[simp] theorem setI_stack (a : Word) (s : State) : (setI a s).stack = s.stack := rfl
@[simp] theorem setI_paused (a : Word) (s : State) : (setI a s).paused = s.paused := rfl
@[simp] theorem setI_kwx (a : Word) (s : State) : (setI a s).kwx = s.kwx := rfl
@[simp] theorem setI_fault (a : Word) (s : State) : (setI a s).fault = s.fault := rfl
@[simp] theorem setI_mem (a : Word) (s : State) : (setI a s).mem = s.mem := rfl
@[simp] theorem setI_config (a : Word) (s : State) : (setI a s).config = s.config := rfl
@[simp] theorem setI_fb (a : Word) (s : State) : (setI a s).fb = s.fb := rfl
@[simp] theorem setI_tone (a : Word) (s : State) : (setI a s).tone = s.tone := rfl
@[simp] theorem setI_requests (a : Word) (s : State) : (setI a s).requests = s.requests := rfl
@[simp] theorem setI_inputs (a : Word) (s : State) : (setI a s).inputs = s.inputs := rfl
@[simp] theorem setI_ticks (a : Word) (s : State) : (setI a s).ticks = s.ticks := rfl
@[simp] theorem setI_frameStarted (a : Word) (s : State) : (setI a s).frameStarted = s.frameStarted := rfl
@[simp] theorem setI_midFrame (a : Word) (s : State) : (setI a s).midFrame = s.midFrame := rfl

/-! `setPc` -/

@[simp] theorem setPc_v (a : Word) (s : State) : (setPc a s).v = s.v := rfl
@[simp] theorem setPc_i (a : Word) (s : State) : (setPc a s).i = s.i := rfl
@[simp] theorem setPc_pc (a : Word) (s : State) : (setPc a s).pc = a := rfl
@[simp] theorem setPc_dt (a : Word) (s : State) : (setPc a s).dt = s.dt := rfl
@[simp] theorem setPc_st (a : Word) (s : State) : (setPc a s).st = s.st := rfl
@[simp] theorem setPc_stack (a : Word) (s : State) : (setPc a s).stack = s.stack := rfl
@[simp] theorem setPc_paused (a : Word) (s : State) : (setPc a s).paused = s.paused := rfl
@[simp] theorem setPc_kwx (a : Word) (s : State) : (setPc a s).kwx = s.kwx := rfl
@[simp] theorem setPc_fault (a : Word) (s : State) : (setPc a s).fault = s.fault := rfl
@[simp] theorem setPc_mem (a : Word) (s : State) : (setPc a s).mem = s.mem := rfl
@[simp] theorem setPc_config (a : Word) (s : State) : (setPc a s).config = s.config := rfl
@[simp] theorem setPc_fb (a : Word) (s : State) : (setPc a s).fb = s.fb := rfl
@[simp] theorem setPc_tone (a : Word) (s : State) : (setPc a s).tone = s.tone := rfl
@[simp] theorem setPc_requests (a : Word) (s : State) : (setPc a s).requests = s.requests := rfl
@[simp] theorem setPc_inputs (a : Word) (s : State) : (setPc a s).inputs = s.inputs := rfl
@[simp] theorem setPc_ticks (a : Word) (s : State) : (setPc a s).ticks = s.ticks := rfl
@[simp] theorem setPc_frameStarted (a : Word) (s : State) : (setPc a s).frameStarted = s.frameStarted := rfl
@[simp] theorem setPc_midFrame (a : Word) (s : State) : (setPc a s).midFrame = s.midFrame := rfl

/-! `setDt` -/

@[simp] theorem setDt_v (b : Byte) (s : State) : (setDt b s).v = s.v := rfl
@[simp] theorem setDt_i (b : Byte) (s : State) : (setDt b s).i = s.i := rfl
@[simp] theorem setDt_pc (b : Byte) (s : State) : (setDt b s).pc = s.pc := rfl
@[simp] theorem setDt_dt (b : Byte) (s : State) : (setDt b s).dt = b := rfl
@[simp] theorem setDt_st (b : Byte) (s : State) : (setDt b s).st = s.st := rfl
@[simp] theorem setDt_stack (b : Byte) (s : State) : (setDt b s).stack = s.stack := rfl
@[simp] theorem setDt_paused (b : Byte) (s : State) : (setDt b s).paused = s.paused := rfl
@[simp] theorem setDt_kwx (b : Byte) (s : State) : (setDt b s).kwx = s.kwx := rfl
@[simp] theorem setDt_fault (b : Byte) (s : State) : (setDt b s).fault = s.fault := rfl
@[simp] theorem setDt_mem (b : Byte) (s : State) : (setDt b s).mem = s.mem := rfl
@[simp] theorem setDt_config (b : Byte) (s : State) : (setDt b s).config = s.config := rfl
@[simp] theorem setDt_fb (b : Byte) (s : State) : (setDt b s).fb = s.fb := rfl
@[simp] theorem setDt_tone (b : Byte) (s : State) : (setDt b s).tone = s.tone := rfl
@[simp] theorem setDt_requests (b : Byte) (s : State) : (setDt b s).requests = s.requests := rfl
@[simp] theorem setDt_inputs (b : Byte) (s : State) : (setDt b s).inputs = s.inputs := rfl
@[simp] theorem setDt_ticks (b : Byte) (s : State) : (setDt b s).ticks = s.ticks := rfl
@[simp] theorem setDt_frameStarted (b : Byte) (s : State) : (setDt b s).frameStarted = s.frameStarted := rfl
@[simp] theorem setDt_midFrame (b : Byte) (s : State) : (setDt b s).midFrame = s.midFrame := rfl

/-! `setSt` -/

@[simp] theorem setSt_v (b : Byte) (s : State) : (setSt b s).v = s.v := rfl
@[simp] theorem setSt_i (b : Byte) (s : State) : (setSt b s).i = s.i := rfl
@[simp] theorem setSt_pc (b : Byte) (s : State) : (setSt b s).pc = s.pc := rfl
@[simp] theorem setSt_dt (b : Byte) (s : State) : (setSt b s).dt = s.dt := rfl
@[simp] theorem setSt_st (b : Byte) (s : State) : (setSt b s).st = b := rfl
@[simp] theorem setSt_stack (b : Byte) (s : State) : (setSt b s).stack = s.stack := rfl
@[simp] theorem setSt_paused (b : Byte) (s : State) : (setSt b s).paused = s.paused := rfl
@[simp] theorem setSt_kwx (b : Byte) (s : State) : (setSt b s).kwx = s.kwx := rfl
@[simp] theorem setSt_fault (b : Byte) (s : State) : (setSt b s).fault = s.fault := rfl
@[simp] theorem setSt_mem (b : Byte) (s : State) : (setSt b s).mem = s.mem := rfl
@[simp] theorem setSt_config (b : Byte) (s : State) : (setSt b s).config = s.config := rfl
@[simp] theorem setSt_fb (b : Byte) (s : State) : (setSt b s).fb = s.fb := rfl
@[simp] theorem setSt_tone (b : Byte) (s : State) : (setSt b s).tone = s.tone := rfl
@[simp] theorem setSt_requests (b : Byte) (s : State) : (setSt b s).requests = s.requests := rfl
@[simp] theorem setSt_inputs (b : Byte) (s : State) : (setSt b s).inputs = s.inputs := rfl
@[simp] theorem setSt_ticks (b : Byte) (s : State) : (setSt b s).ticks = s.ticks := rfl
@[simp] theorem setSt_frameStarted (b : Byte) (s : State) : (setSt b s).frameStarted = s.frameStarted := rfl
@[simp] theorem setSt_midFrame (b : Byte) (s : State) : (setSt b s).midFrame = s.midFrame := rfl

/-! `setStack` -/

@[simp] theorem setStack_v (k : List Word) (s : State) : (setStack k s).v = s.v := rfl
@[simp] theorem setStack_i (k : List Word) (s : State) : (setStack k s).i = s.i := rfl
@[simp] theorem setStack_pc (k : List Word) (s : State) : (setStack k s).pc = s.pc := rfl
@[simp] theorem setStack_dt (k : List Word) (s : State) : (setStack k s).dt = s.dt := rfl
@[simp] theorem setStack_st (k : List Word) (s : State) : (setStack k s).st = s.st := rfl
@[simp] theorem setStack_stack (k : List Word) (s : State) : (setStack k s).stack = k := rfl
@[simp] theorem setStack_paused (k : List Word) (s : State) : (setStack k s).paused = s.paused := rfl
@[simp] theorem setStack_kwx (k : List Word) (s : State) : (setStack k s).kwx = s.kwx := rfl
@[simp] theorem setStack_fault (k : List Word) (s : State) : (setStack k s).fault = s.fault := rfl
@[simp] theorem setStack_mem (k : List Word) (s : State) : (setStack k s).mem = s.mem := rfl
@[simp] theorem setStack_config (k : List Word) (s : State) : (setStack k s).config = s.config := rfl
@[simp] theorem setStack_fb (k : List Word) (s : State) : (setStack k s).fb = s.fb := rfl
@[simp] theorem setStack_tone (k : List Word) (s : State) : (setStack k s).tone = s.tone := rfl
@[simp] theorem setStack_requests (k : List Word) (s : State) : (setStack k s).requests = s.requests := rfl
@[simp] theorem setStack_inputs (k : List Word) (s : State) : (setStack k s).inputs = s.inputs := rfl
@[simp] theorem setStack_ticks (k : List Word) (s : State) : (setStack k s).ticks = s.ticks := rfl
@[simp] theorem setStack_frameStarted (k : List Word) (s : State) : (setStack k s).frameStarted = s.frameStarted := rfl
@[simp] theorem setStack_midFrame (k : List Word) (s : State) : (setStack k s).midFrame = s.midFrame := rfl

/-! `setPaused` -/

@[simp] theorem setPaused_v (p : Bool) (s : State) : (setPaused p s).v = s.v := rfl
@[simp] theorem setPaused_i (p : Bool) (s : State) : (setPaused p s).i = s.i := rfl
@[simp] theorem setPaused_pc (p : Bool) (s : State) : (setPaused p s).pc = s.pc := rfl
@[simp] theorem setPaused_dt (p : Bool) (s : State) : (setPaused p s).dt = s.dt := rfl
@[simp] theorem setPaused_st (p : Bool) (s : State) : (setPaused p s).st = s.st := rfl
@[simp] theorem setPaused_stack (p : Bool) (s : State) : (setPaused p s).stack = s.stack := rfl
@[simp] theorem setPaused_paused (p : Bool) (s : State) : (setPaused p s).paused = p := rfl
@[simp] theorem setPaused_kwx (p : Bool) (s : State) : (setPaused p s).kwx = s.kwx := rfl
@[simp] theorem setPaused_fault (p : Bool) (s : State) : (setPaused p s).fault = s.fault := rfl
@[simp] theorem setPaused_mem (p : Bool) (s : State) : (setPaused p s).mem = s.mem := rfl
@[simp] theorem setPaused_config (p : Bool) (s : State) : (setPaused p s).config = s.config := rfl
@[simp] theorem setPaused_fb (p : Bool) (s : State) : (setPaused p s).fb = s.fb := rfl
@[simp] theorem setPaused_tone (p : Bool) (s : State) : (setPaused p s).tone = s.tone := rfl
@[simp] theorem setPaused_requests (p : Bool) (s : State) : (setPaused p s).requests = s.requests := rfl
@[simp] theorem setPaused_inputs (p : Bool) (s : State) : (setPaused p s).inputs = s.inputs := rfl
@[simp] theorem setPaused_ticks (p : Bool) (s : State) : (setPaused p s).ticks = s.ticks := rfl
@[simp] theorem setPaused_frameStarted (p : Bool) (s : State) : (setPaused p s).frameStarted = s.frameStarted := rfl
@[simp] theorem setPaused_midFrame (p : Bool) (s : State) : (setPaused p s).midFrame = s.midFrame := rfl

/-! `setKwx` -/

@[simp] theorem setKwx_v (x : RegIdx) (s : State) : (setKwx x s).v = s.v := rfl
@[simp] theorem setKwx_i (x : RegIdx) (s : State) : (setKwx x s).i = s.i := rfl
@[simp] theorem setKwx_pc (x : RegIdx) (s : State) : (setKwx x s).pc = s.pc := rfl
@[simp] theorem setKwx_dt (x : RegIdx) (s : State) : (setKwx x s).dt = s.dt := rfl
@[simp] theorem setKwx_st (x : RegIdx) (s : State) : (setKwx x s).st = s.st := rfl
@[simp] theorem setKwx_stack (x : RegIdx) (s : State) : (setKwx x s).stack = s.stack := rfl
@[simp] theorem setKwx_paused (x : RegIdx) (s : State) : (setKwx x s).paused = s.paused := rfl
@[simp] theorem setKwx_kwx (x : RegIdx) (s : State) : (setKwx x s).kwx = x := rfl
@[simp] theorem setKwx_fault (x : RegIdx) (s : State) : (setKwx x s).fault = s.fault := rfl
@[simp] theorem setKwx_mem (x : RegIdx) (s : State) : (setKwx x s).mem = s.mem := rfl
@[simp] theorem setKwx_config (x : RegIdx) (s : State) : (setKwx x s).config = s.config := rfl
@[simp] theorem setKwx_fb (x : RegIdx) (s : State) : (setKwx x s).fb = s.fb := rfl
@[simp] theorem setKwx_tone (x : RegIdx) (s : State) : (setKwx x s).tone = s.tone := rfl
@[simp] theorem setKwx_requests (x : RegIdx) (s : State) : (setKwx x s).requests = s.requests := rfl
@[simp] theorem setKwx_inputs (x : RegIdx) (s : State) : (setKwx x s).inputs = s.inputs := rfl
@[simp] theorem setKwx_ticks (x : RegIdx) (s : State) : (setKwx x s).ticks = s.ticks := rfl
@[simp] theorem setKwx_frameStarted (x : RegIdx) (s : State) : (setKwx x s).frameStarted = s.frameStarted := rfl
@[simp] theorem setKwx_midFrame (x : RegIdx) (s : State) : (setKwx x s).midFrame = s.midFrame := rfl

/-! `setMem` -/

@[simp] theorem setMem_v (m : Memory) (s : State) : (setMem m s).v = s.v := rfl
@[simp] theorem setMem_i (m : Memory) (s : State) : (setMem m s).i = s.i := rfl
@[simp] theorem setMem_pc (m : Memory) (s : State) : (setMem m s).pc = s.pc := rfl
@[simp] theorem setMem_dt (m : Memory) (s : State) : (setMem m s).dt = s.dt := rfl
@[simp] theorem setMem_st (m : Memory) (s : State) : (setMem m s).st = s.st := rfl
@[simp] theorem setMem_stack (m : Memory) (s : State) : (setMem m s).stack = s.stack := rfl
@[simp] theorem setMem_paused (m : Memory) (s : State) : (setMem m s).paused = s.paused := rfl
@[simp] theorem setMem_kwx (m : Memory) (s : State) : (setMem m s).kwx = s.kwx := rfl
@[simp] theorem setMem_fault (m : Memory) (s : State) : (setMem m s).fault = s.fault := rfl
@[simp] theorem setMem_mem (m : Memory) (s : State) : (setMem m s).mem = m := rfl
@[simp] theorem setMem_config (m : Memory) (s : State) : (setMem m s).config = s.config := rfl
@[simp] theorem setMem_fb (m : Memory) (s : State) : (setMem m s).fb = s.fb := rfl
@[simp] theorem setMem_tone (m : Memory) (s : State) : (setMem m s).tone = s.tone := rfl
@[simp] theorem setMem_requests (m : Memory) (s : State) : (setMem m s).requests = s.requests := rfl
@[simp] theorem setMem_inputs (m : Memory) (s : State) : (setMem m s).inputs = s.inputs := rfl
@[simp] theorem setMem_ticks (m : Memory) (s : State) : (setMem m s).ticks = s.ticks := rfl
@[simp] theorem setMem_frameStarted (m : Memory) (s : State) : (setMem m s).frameStarted = s.frameStarted := rfl
@[simp] theorem setMem_midFrame (m : Memory) (s : State) : (setMem m s).midFrame = s.midFrame := rfl

/-! `setFb` -/

@[simp] theorem setFb_v (f : Vector (BitVec 64) 32) (s : State) : (setFb f s).v = s.v := rfl
@[simp] theorem setFb_i (f : Vector (BitVec 64) 32) (s : State) : (setFb f s).i = s.i := rfl
@[simp] theorem setFb_pc (f : Vector (BitVec 64) 32) (s : State) : (setFb f s).pc = s.pc := rfl
@[simp] theorem setFb_dt (f : Vector (BitVec 64) 32) (s : State) : (setFb f s).dt = s.dt := rfl
@[simp] theorem setFb_st (f : Vector (BitVec 64) 32) (s : State) : (setFb f s).st = s.st := rfl
@[simp] theorem setFb_stack (f : Vector (BitVec 64) 32) (s : State) : (setFb f s).stack = s.stack := rfl
@[simp] theorem setFb_paused (f : Vector (BitVec 64) 32) (s : State) : (setFb f s).paused = s.paused := rfl
@[simp] theorem setFb_kwx (f : Vector (BitVec 64) 32) (s : State) : (setFb f s).kwx = s.kwx := rfl
@[simp] theorem setFb_fault (f : Vector (BitVec 64) 32) (s : State) : (setFb f s).fault = s.fault := rfl
@[simp] theorem setFb_mem (f : Vector (BitVec 64) 32) (s : State) : (setFb f s).mem = s.mem := rfl
@[simp] theorem setFb_config (f : Vector (BitVec 64) 32) (s : State) : (setFb f s).config = s.config := rfl
@[simp] theorem setFb_fb (f : Vector (BitVec 64) 32) (s : State) : (setFb f s).fb = f := rfl
@[simp] theorem setFb_tone (f : Vector (BitVec 64) 32) (s : State) : (setFb f s).tone = s.tone := rfl
@[simp] theorem setFb_requests (f : Vector (BitVec 64) 32) (s : State) : (setFb f s).requests = s.requests := rfl
@[simp] theorem setFb_inputs (f : Vector (BitVec 64) 32) (s : State) : (setFb f s).inputs = s.inputs := rfl
@[simp] theorem setFb_ticks (f : Vector (BitVec 64) 32) (s : State) : (setFb f s).ticks = s.ticks := rfl
@[simp] theorem setFb_frameStarted (f : Vector (BitVec 64) 32) (s : State) : (setFb f s).frameStarted = s.frameStarted := rfl
@[simp] theorem setFb_midFrame (f : Vector (BitVec 64) 32) (s : State) : (setFb f s).midFrame = s.midFrame := rfl

/-! `setTone` -/

@[simp] theorem setTone_v (b : Bool) (s : State) : (setTone b s).v = s.v := rfl
@[simp] theorem setTone_i (b : Bool) (s : State) : (setTone b s).i = s.i := rfl
@[simp] theorem setTone_pc (b : Bool) (s : State) : (setTone b s).pc = s.pc := rfl
@[simp] theorem setTone_dt (b : Bool) (s : State) : (setTone b s).dt = s.dt := rfl
@[simp] theorem setTone_st (b : Bool) (s : State) : (setTone b s).st = s.st := rfl
@[simp] theorem setTone_stack (b : Bool) (s : State) : (setTone b s).stack = s.stack := rfl
@[simp] theorem setTone_paused (b : Bool) (s : State) : (setTone b s).paused = s.paused := rfl
@[simp] theorem setTone_kwx (b : Bool) (s : State) : (setTone b s).kwx = s.kwx := rfl
@[simp] theorem setTone_fault (b : Bool) (s : State) : (setTone b s).fault = s.fault := rfl
@[simp] theorem setTone_mem (b : Bool) (s : State) : (setTone b s).mem = s.mem := rfl
@[simp] theorem setTone_config (b : Bool) (s : State) : (setTone b s).config = s.config := rfl
@[simp] theorem setTone_fb (b : Bool) (s : State) : (setTone b s).fb = s.fb := rfl
@[simp] theorem setTone_tone (b : Bool) (s : State) : (setTone b s).tone = b := rfl
@[simp] theorem setTone_requests (b : Bool) (s : State) : (setTone b s).requests = s.requests := rfl
@[simp] theorem setTone_inputs (b : Bool) (s : State) : (setTone b s).inputs = s.inputs := rfl
@[simp] theorem setTone_ticks (b : Bool) (s : State) : (setTone b s).ticks = s.ticks := rfl
@[simp] theorem setTone_frameStarted (b : Bool) (s : State) : (setTone b s).frameStarted = s.frameStarted := rfl
@[simp] theorem setTone_midFrame (b : Bool) (s : State) : (setTone b s).midFrame = s.midFrame := rfl

/-! `addRequest` -/

@[simp] theorem addRequest_v (q : PortRequest) (s : State) : (addRequest q s).v = s.v := rfl
@[simp] theorem addRequest_i (q : PortRequest) (s : State) : (addRequest q s).i = s.i := rfl
@[simp] theorem addRequest_pc (q : PortRequest) (s : State) : (addRequest q s).pc = s.pc := rfl
@[simp] theorem addRequest_dt (q : PortRequest) (s : State) : (addRequest q s).dt = s.dt := rfl
@[simp] theorem addRequest_st (q : PortRequest) (s : State) : (addRequest q s).st = s.st := rfl
@[simp] theorem addRequest_stack (q : PortRequest) (s : State) : (addRequest q s).stack = s.stack := rfl
@[simp] theorem addRequest_paused (q : PortRequest) (s : State) : (addRequest q s).paused = s.paused := rfl
@[simp] theorem addRequest_kwx (q : PortRequest) (s : State) : (addRequest q s).kwx = s.kwx := rfl
@[simp] theorem addRequest_fault (q : PortRequest) (s : State) : (addRequest q s).fault = s.fault := rfl
@[simp] theorem addRequest_mem (q : PortRequest) (s : State) : (addRequest q s).mem = s.mem := rfl
@[simp] theorem addRequest_config (q : PortRequest) (s : State) : (addRequest q s).config = s.config := rfl
@[simp] theorem addRequest_fb (q : PortRequest) (s : State) : (addRequest q s).fb = s.fb := rfl
@[simp] theorem addRequest_tone (q : PortRequest) (s : State) : (addRequest q s).tone = s.tone := rfl
@[simp] theorem addRequest_requests (q : PortRequest) (s : State) : (addRequest q s).requests = s.requests ++ [q] := rfl
@[simp] theorem addRequest_inputs (q : PortRequest) (s : State) : (addRequest q s).inputs = s.inputs := rfl
@[simp] theorem addRequest_ticks (q : PortRequest) (s : State) : (addRequest q s).ticks = s.ticks := rfl
@[simp] theorem addRequest_frameStarted (q : PortRequest) (s : State) : (addRequest q s).frameStarted = s.frameStarted := rfl
@[simp] theorem addRequest_midFrame (q : PortRequest) (s : State) : (addRequest q s).midFrame = s.midFrame := rfl

/-! `writeReg` -/

@[simp] theorem writeReg_v (x : RegIdx) (b : Byte) (s : State) : (writeReg x b s).v = s.v.set x.val b := rfl
@[simp] theorem writeReg_i (x : RegIdx) (b : Byte) (s : State) : (writeReg x b s).i = s.i := rfl
@[simp] theorem writeReg_pc (x : RegIdx) (b : Byte) (s : State) : (writeReg x b s).pc = s.pc := rfl
@[simp] theorem writeReg_dt (x : RegIdx) (b : Byte) (s : State) : (writeReg x b s).dt = s.dt := rfl
@[simp] theorem writeReg_st (x : RegIdx) (b : Byte) (s : State) : (writeReg x b s).st = s.st := rfl
@[simp] theorem writeReg_stack (x : RegIdx) (b : Byte) (s : State) : (writeReg x b s).stack = s.stack := rfl
@[simp] theorem writeReg_paused (x : RegIdx) (b : Byte) (s : State) : (writeReg x b s).paused = s.paused := rfl
@[simp] theorem writeReg_kwx (x : RegIdx) (b : Byte) (s : State) : (writeReg x b s).kwx = s.kwx := rfl
@[simp] theorem writeReg_fault (x : RegIdx) (b : Byte) (s : State) : (writeReg x b s).fault = s.fault := rfl
@[simp] theorem writeReg_mem (x : RegIdx) (b : Byte) (s : State) : (writeReg x b s).mem = s.mem := rfl
@[simp] theorem writeReg_config (x : RegIdx) (b : Byte) (s : State) : (writeReg x b s).config = s.config := rfl
@[simp] theorem writeReg_fb (x : RegIdx) (b : Byte) (s : State) : (writeReg x b s).fb = s.fb := rfl
@[simp] theorem writeReg_tone (x : RegIdx) (b : Byte) (s : State) : (writeReg x b s).tone = s.tone := rfl
@[simp] theorem writeReg_requests (x : RegIdx) (b : Byte) (s : State) : (writeReg x b s).requests = s.requests := rfl
@[simp] theorem writeReg_inputs (x : RegIdx) (b : Byte) (s : State) : (writeReg x b s).inputs = s.inputs := rfl
@[simp] theorem writeReg_ticks (x : RegIdx) (b : Byte) (s : State) : (writeReg x b s).ticks = s.ticks := rfl
@[simp] theorem writeReg_frameStarted (x : RegIdx) (b : Byte) (s : State) : (writeReg x b s).frameStarted = s.frameStarted := rfl
@[simp] theorem writeReg_midFrame (x : RegIdx) (b : Byte) (s : State) : (writeReg x b s).midFrame = s.midFrame := rfl

/-! `advancePc` -/

@[simp] theorem advancePc_v (s : State) : (advancePc s).v = s.v := rfl
@[simp] theorem advancePc_i (s : State) : (advancePc s).i = s.i := rfl
@[simp] theorem advancePc_pc (s : State) : (advancePc s).pc = s.pc + 2#16 := rfl
@[simp] theorem advancePc_dt (s : State) : (advancePc s).dt = s.dt := rfl
@[simp] theorem advancePc_st (s : State) : (advancePc s).st = s.st := rfl
@[simp] theorem advancePc_stack (s : State) : (advancePc s).stack = s.stack := rfl
@[simp] theorem advancePc_paused (s : State) : (advancePc s).paused = s.paused := rfl
@[simp] theorem advancePc_kwx (s : State) : (advancePc s).kwx = s.kwx := rfl
@[simp] theorem advancePc_fault (s : State) : (advancePc s).fault = s.fault := rfl
@[simp] theorem advancePc_mem (s : State) : (advancePc s).mem = s.mem := rfl
@[simp] theorem advancePc_config (s : State) : (advancePc s).config = s.config := rfl
@[simp] theorem advancePc_fb (s : State) : (advancePc s).fb = s.fb := rfl
@[simp] theorem advancePc_tone (s : State) : (advancePc s).tone = s.tone := rfl
@[simp] theorem advancePc_requests (s : State) : (advancePc s).requests = s.requests := rfl
@[simp] theorem advancePc_inputs (s : State) : (advancePc s).inputs = s.inputs := rfl
@[simp] theorem advancePc_ticks (s : State) : (advancePc s).ticks = s.ticks := rfl
@[simp] theorem advancePc_frameStarted (s : State) : (advancePc s).frameStarted = s.frameStarted := rfl
@[simp] theorem advancePc_midFrame (s : State) : (advancePc s).midFrame = s.midFrame := rfl

/-! `timerStep` -/

@[simp] theorem timerStep_v (s : State) : (timerStep s).v = s.v := rfl
@[simp] theorem timerStep_i (s : State) : (timerStep s).i = s.i := rfl
@[simp] theorem timerStep_pc (s : State) : (timerStep s).pc = s.pc := rfl
@[simp] theorem timerStep_dt (s : State) : (timerStep s).dt = decTimer s.dt := rfl
@[simp] theorem timerStep_st (s : State) : (timerStep s).st = decTimer s.st := rfl
@[simp] theorem timerStep_stack (s : State) : (timerStep s).stack = s.stack := rfl
@[simp] theorem timerStep_paused (s : State) : (timerStep s).paused = s.paused := rfl
@[simp] theorem timerStep_kwx (s : State) : (timerStep s).kwx = s.kwx := rfl
@[simp] theorem timerStep_fault (s : State) : (timerStep s).fault = s.fault := rfl
@[simp] theorem timerStep_mem (s : State) : (timerStep s).mem = s.mem := rfl
@[simp] theorem timerStep_config (s : State) : (timerStep s).config = s.config := rfl
@[simp] theorem timerStep_fb (s : State) : (timerStep s).fb = s.fb := rfl
@[simp] theorem timerStep_tone (s : State) : (timerStep s).tone = s.tone := rfl
@[simp] theorem timerStep_requests (s : State) : (timerStep s).requests = s.requests := rfl
@[simp] theorem timerStep_inputs (s : State) : (timerStep s).inputs = s.inputs := rfl
@[simp] theorem timerStep_ticks (s : State) : (timerStep s).ticks = s.ticks := rfl
@[simp] theorem timerStep_frameStarted (s : State) : (timerStep s).frameStarted = s.frameStarted := rfl
@[simp] theorem timerStep_midFrame (s : State) : (timerStep s).midFrame = s.midFrame := rfl

/-! `closeTick` -/

@[simp] theorem closeTick_v (s : State) : (closeTick s).v = s.v := rfl
@[simp] theorem closeTick_i (s : State) : (closeTick s).i = s.i := rfl
@[simp] theorem closeTick_pc (s : State) : (closeTick s).pc = s.pc := rfl
@[simp] theorem closeTick_dt (s : State) : (closeTick s).dt = s.dt := rfl
@[simp] theorem closeTick_st (s : State) : (closeTick s).st = s.st := rfl
@[simp] theorem closeTick_stack (s : State) : (closeTick s).stack = s.stack := rfl
@[simp] theorem closeTick_paused (s : State) : (closeTick s).paused = s.paused := rfl
@[simp] theorem closeTick_kwx (s : State) : (closeTick s).kwx = s.kwx := rfl
@[simp] theorem closeTick_fault (s : State) : (closeTick s).fault = s.fault := rfl
@[simp] theorem closeTick_mem (s : State) : (closeTick s).mem = s.mem := rfl
@[simp] theorem closeTick_config (s : State) : (closeTick s).config = s.config := rfl
@[simp] theorem closeTick_fb (s : State) : (closeTick s).fb = s.fb := rfl
@[simp] theorem closeTick_tone (s : State) : (closeTick s).tone = s.tone := rfl
@[simp] theorem closeTick_requests (s : State) : (closeTick s).requests = s.requests := rfl
@[simp] theorem closeTick_inputs (s : State) : (closeTick s).inputs = s.inputs.tail := rfl
@[simp] theorem closeTick_ticks (s : State) : (closeTick s).ticks = s.ticks + 1 := rfl
@[simp] theorem closeTick_frameStarted (s : State) : (closeTick s).frameStarted = true := rfl
@[simp] theorem closeTick_midFrame (s : State) : (closeTick s).midFrame = true := rfl

/-! `skipIf` touches `pc` alone. -/

@[simp] theorem skipIf_v (c : Bool) (s : State) : (skipIf c s).v = s.v := by cases c <;> rfl
@[simp] theorem skipIf_i (c : Bool) (s : State) : (skipIf c s).i = s.i := by cases c <;> rfl
@[simp] theorem skipIf_pc (c : Bool) (s : State) : (skipIf c s).pc = if c then s.pc + 2#16 else s.pc := by
  cases c <;> rfl
@[simp] theorem skipIf_dt (c : Bool) (s : State) : (skipIf c s).dt = s.dt := by cases c <;> rfl
@[simp] theorem skipIf_st (c : Bool) (s : State) : (skipIf c s).st = s.st := by cases c <;> rfl
@[simp] theorem skipIf_stack (c : Bool) (s : State) : (skipIf c s).stack = s.stack := by cases c <;> rfl
@[simp] theorem skipIf_paused (c : Bool) (s : State) : (skipIf c s).paused = s.paused := by cases c <;> rfl
@[simp] theorem skipIf_kwx (c : Bool) (s : State) : (skipIf c s).kwx = s.kwx := by cases c <;> rfl
@[simp] theorem skipIf_fault (c : Bool) (s : State) : (skipIf c s).fault = s.fault := by cases c <;> rfl
@[simp] theorem skipIf_mem (c : Bool) (s : State) : (skipIf c s).mem = s.mem := by cases c <;> rfl
@[simp] theorem skipIf_config (c : Bool) (s : State) : (skipIf c s).config = s.config := by cases c <;> rfl
@[simp] theorem skipIf_fb (c : Bool) (s : State) : (skipIf c s).fb = s.fb := by cases c <;> rfl
@[simp] theorem skipIf_tone (c : Bool) (s : State) : (skipIf c s).tone = s.tone := by cases c <;> rfl
@[simp] theorem skipIf_requests (c : Bool) (s : State) : (skipIf c s).requests = s.requests := by cases c <;> rfl
@[simp] theorem skipIf_inputs (c : Bool) (s : State) : (skipIf c s).inputs = s.inputs := by cases c <;> rfl
@[simp] theorem skipIf_ticks (c : Bool) (s : State) : (skipIf c s).ticks = s.ticks := by cases c <;> rfl
@[simp] theorem skipIf_frameStarted (c : Bool) (s : State) : (skipIf c s).frameStarted = s.frameStarted := by cases c <;> rfl
@[simp] theorem skipIf_midFrame (c : Bool) (s : State) : (skipIf c s).midFrame = s.midFrame := by cases c <;> rfl

/-! The flag write is the write of `V[15]`. -/

@[simp] theorem writeFlag_eq (b : Byte) (s : State) : writeFlag b s = writeReg flagReg b s := rfl

end Sys2Proof.Machine
end

