-- ==== Sys2Proof/Laws/Registers.lean ====
section
/-! SUPPORT. Reading a register after writing one, and the block operations of `Fx55` and `Fx65`. -/

namespace Sys2Proof.Machine

@[simp] theorem readReg_writeReg_same (x : RegIdx) (b : Byte) (s : State) : readReg x (writeReg x b s) = b := by
  simp [readReg]

theorem readReg_writeReg (x y : RegIdx) (b : Byte) (s : State) :
    readReg y (writeReg x b s) = if y = x then b else readReg y s := by
  by_cases h : y = x
  · subst h; simp
  · have hv : x.val ≠ y.val := fun e => h (Fin.ext e.symm)
    simp [readReg, h, hv]

@[simp] theorem readReg_writeReg_ne (x y : RegIdx) (b : Byte) (s : State) (h : y ≠ x) :
    readReg y (writeReg x b s) = readReg y s := by
  simp [readReg_writeReg, h]

/-- A write of a register is the only thing that changes what registers read as. -/
theorem readReg_congr {s t : State} (h : t.v = s.v) (x : RegIdx) : readReg x t = readReg x s := by
  simp [readReg, h]

@[simp] theorem readReg_setI (x : RegIdx) (a : Word) (s : State) : readReg x (setI a s) = readReg x s := rfl
@[simp] theorem readReg_setPc (x : RegIdx) (a : Word) (s : State) : readReg x (setPc a s) = readReg x s := rfl
@[simp] theorem readReg_setDt (x : RegIdx) (b : Byte) (s : State) : readReg x (setDt b s) = readReg x s := rfl
@[simp] theorem readReg_setSt (x : RegIdx) (b : Byte) (s : State) : readReg x (setSt b s) = readReg x s := rfl
@[simp] theorem readReg_setStack (x : RegIdx) (k : List Word) (s : State) : readReg x (setStack k s) = readReg x s := rfl
@[simp] theorem readReg_setPaused (x : RegIdx) (p : Bool) (s : State) : readReg x (setPaused p s) = readReg x s := rfl
@[simp] theorem readReg_setKwx (x y : RegIdx) (s : State) : readReg x (setKwx y s) = readReg x s := rfl
@[simp] theorem readReg_setMem (x : RegIdx) (m : Memory) (s : State) : readReg x (setMem m s) = readReg x s := rfl
@[simp] theorem readReg_setFb (x : RegIdx) (f : Vector (BitVec 64) 32) (s : State) : readReg x (setFb f s) = readReg x s := rfl
@[simp] theorem readReg_setTone (x : RegIdx) (b : Bool) (s : State) : readReg x (setTone b s) = readReg x s := rfl
@[simp] theorem readReg_addRequest (x : RegIdx) (q : PortRequest) (s : State) :
    readReg x (addRequest q s) = readReg x s := rfl
@[simp] theorem readReg_advancePc (x : RegIdx) (s : State) : readReg x (advancePc s) = readReg x s := rfl
@[simp] theorem readReg_timerStep (x : RegIdx) (s : State) : readReg x (timerStep s) = readReg x s := rfl
@[simp] theorem readReg_closeTick (x : RegIdx) (s : State) : readReg x (closeTick s) = readReg x s := rfl
@[simp] theorem readReg_skipIf (x : RegIdx) (c : Bool) (s : State) : readReg x (skipIf c s) = readReg x s := by
  cases c <;> rfl

/-- A block write of registers touches the register file alone. -/
theorem writeRegs_eq_set_v (bs : List Byte) : ∀ (k : Nat) (s : State), ∃ v, writeRegs k bs s = { s with v := v } := by
  induction bs with
  | nil => intro k s; exact ⟨s.v, rfl⟩
  | cons b rest ih =>
    intro k s
    by_cases h : k < 16
    · obtain ⟨v, hv⟩ := ih (k + 1) (writeReg ⟨k, h⟩ b s)
      exact ⟨v, by simp only [writeRegs, h, dite_true, hv]; rfl⟩
    · obtain ⟨v, hv⟩ := ih (k + 1) s
      exact ⟨v, by simp only [writeRegs, h, dite_false, hv]⟩

/-- What a register reads as after a block write from register `k` up. -/
theorem readReg_writeRegs (bs : List Byte) : ∀ (k : Nat) (s : State) (x : RegIdx),
    readReg x (writeRegs k bs s) =
      if h : k ≤ x.val ∧ x.val - k < bs.length then bs[x.val - k]'h.2 else readReg x s := by
  induction bs with
  | nil => intro k s x; simp [writeRegs]
  | cons b rest ih =>
    intro k s x
    rw [writeRegs, ih]
    by_cases h1 : k + 1 ≤ x.val ∧ x.val - (k + 1) < rest.length
    · have h2 : k ≤ x.val ∧ x.val - k < (b :: rest).length := ⟨by omega, by simp; omega⟩
      have h3 : x.val - k = (x.val - (k + 1)) + 1 := by omega
      rw [dif_pos h1, dif_pos h2]
      simp only [h3, List.getElem_cons_succ]
    · rw [dif_neg h1]
      by_cases h2 : k ≤ x.val ∧ x.val - k < (b :: rest).length
      · have hx : x.val = k := by
          have := h2.2
          simp only [List.length_cons] at this
          omega
        have hk : k < 16 := hx ▸ x.isLt
        have hxk : x = ⟨k, hk⟩ := Fin.ext hx
        subst hxk
        simp [hk]
      · rw [dif_neg h2]
        by_cases hk : k < 16
        · have hne : x ≠ ⟨k, hk⟩ := by
            intro e
            apply h2
            subst e
            simp
          simp [hk, hne]
        · simp [hk]

theorem regsUpTo_length (x : RegIdx) (s : State) : (regsUpTo x s).length = x.val + 1 := by
  have := x.isLt
  simp [regsUpTo]

/-- The k-th byte `Fx55` stores is `V[k]`. -/
theorem regsUpTo_getElem (x : RegIdx) (s : State) (k : Nat) (h : k < (regsUpTo x s).length) (h16 : k < 16) :
    (regsUpTo x s)[k] = readReg ⟨k, h16⟩ s := by
  simp [regsUpTo, readReg]

end Sys2Proof.Machine
end

