-- ==== Sys2Proof/Laws/Memory.lean ====
section
/-! SUPPORT. Memory: a read after a write, every other address kept, and the canonical form kept by every operation. -/

namespace Sys2Proof.Machine

variable {font : Vector Byte 80} {m : Memory} {a : Nat} {b : Byte}

theorem lookupByte_insertCell (font : Vector Byte 80) (a : Nat) (b : Byte) (m : Memory) (c : Nat) :
    lookupByte font c (insertCell a b m) = if c = a then b else lookupByte font c m := by
  induction m with
  | nil =>
    by_cases h : c = a
    · simp [insertCell, lookupByte, h]
    · simp [insertCell, lookupByte, h, Ne.symm h]
  | cons d rest ih =>
    rw [insertCell]
    by_cases h : c = a
    · subst h
      by_cases h1 : c < d.1
      · simp [h1, lookupByte]
      · by_cases h2 : c = d.1
        · simp [h2, lookupByte]
        · simp only [h1, h2, if_false, lookupByte, ih, if_true]
          rw [if_neg (Ne.symm h2)]
    · have ha : a ≠ c := Ne.symm h
      by_cases h1 : a < d.1
      · simp [h1, lookupByte, h, ha]
      · by_cases h2 : a = d.1
        · have hd : d.1 ≠ c := fun e => ha (h2.trans e)
          simp [h2, lookupByte, hd, Ne.symm hd]
        · simp only [h1, h2, if_false, lookupByte, ih, h]

theorem lookupByte_erase (font : Vector Byte 80) (a : Nat) (m : Memory) (c : Nat) :
    lookupByte font c (m.filter (fun d => d.1 != a)) = if c = a then unlistedByte font a else lookupByte font c m := by
  induction m with
  | nil => by_cases h : c = a <;> simp [lookupByte, h]
  | cons d rest ih =>
    by_cases h1 : d.1 = a
    · have hda : (d.1 != a) = false := by simp [h1]
      simp only [List.filter_cons, hda, Bool.false_eq_true, if_false, ih]
      by_cases h : c = a
      · simp [h]
      · have hd : d.1 ≠ c := fun e => h (by rw [← e, h1])
        simp [h, lookupByte, hd]
    · have hda : (d.1 != a) = true := by simp [h1]
      simp only [List.filter_cons, hda, if_true, lookupByte, ih]
      by_cases h2 : d.1 = c
      · have hc : c ≠ a := fun e => h1 (by rw [h2, e])
        simp [h2, hc]
      · simp only [h2, if_false]

/-- Read after write, and every other address kept, whatever the list's form. -/
theorem lookupByte_storeByte (font : Vector Byte 80) (a : Nat) (b : Byte) (m : Memory) (c : Nat) :
    lookupByte font c (storeByte font a b m) = if c = a then b else lookupByte font c m := by
  unfold storeByte
  by_cases h : b = unlistedByte font a
  · rw [if_pos h, lookupByte_erase, h]
  · rw [if_neg h, lookupByte_insertCell]

theorem mem_insertCell {a : Nat} {b : Byte} {m : Memory} {c : Host.Cell} (h : c ∈ insertCell a b m) :
    c = (a, b) ∨ c ∈ m := by
  induction m with
  | nil => simpa [insertCell] using h
  | cons d rest ih =>
    rw [insertCell] at h
    split at h
    · simpa using h
    · split at h
      · rcases List.mem_cons.1 h with h | h
        · exact .inl h
        · exact .inr (List.mem_cons_of_mem _ h)
      · rcases List.mem_cons.1 h with h | h
        · exact .inr (h ▸ List.mem_cons_self ..)
        · rcases ih h with h | h
          · exact .inl h
          · exact .inr (List.mem_cons_of_mem _ h)

theorem insertCell_pairwise (a : Nat) (b : Byte) {m : Memory} (h : m.Pairwise (fun c d => c.1 < d.1)) :
    (insertCell a b m).Pairwise (fun c d => c.1 < d.1) := by
  induction m with
  | nil => simp [insertCell]
  | cons d rest ih =>
    obtain ⟨hd, hrest⟩ := List.pairwise_cons.1 h
    rw [insertCell]
    split
    · rename_i hlt
      refine List.pairwise_cons.2 ⟨?_, h⟩
      intro c hc
      rcases List.mem_cons.1 hc with rfl | hc
      · exact hlt
      · exact Nat.lt_trans hlt (hd c hc)
    · split
      · rename_i heq
        refine List.pairwise_cons.2 ⟨?_, hrest⟩
        intro c hc
        simpa [heq] using hd c hc
      · rename_i hge hne
        refine List.pairwise_cons.2 ⟨?_, ih hrest⟩
        intro c hc
        rcases mem_insertCell hc with rfl | hc
        · simp only
          omega
        · exact hd c hc

/-- A store keeps the canonical form. -/
theorem storeByte_wf (h : Memory.wf font m) (ha : a < memSize) : Memory.wf font (storeByte font a b m) := by
  unfold storeByte
  split
  · exact ⟨h.1.filter _, fun c hc => h.2 c (List.mem_of_mem_filter hc)⟩
  · rename_i hb
    refine ⟨insertCell_pairwise a b h.1, fun c hc => ?_⟩
    rcases mem_insertCell hc with rfl | hc
    · exact ⟨ha, hb⟩
    · exact h.2 c hc

/-! Two canonical memories that read alike everywhere are one list: equal memories are equal data. -/

theorem lookupByte_of_lt {c : Nat} (h : ∀ d ∈ m, c < d.1) : lookupByte font c m = unlistedByte font c := by
  induction m with
  | nil => rfl
  | cons d rest ih =>
    have hd := h d (List.mem_cons_self ..)
    have : d.1 ≠ c := by omega
    simp only [lookupByte, this, if_false]
    exact ih (fun e he => h e (List.mem_cons_of_mem _ he))

theorem Memory.wf_tail {d : Host.Cell} {rest : Memory} (h : Memory.wf font (d :: rest)) : Memory.wf font rest :=
  ⟨(List.pairwise_cons.1 h.1).2, fun c hc => h.2 c (List.mem_cons_of_mem _ hc)⟩

theorem memory_eq_of_lookup_eq : ∀ {m k : Memory}, Memory.wf font m → Memory.wf font k →
    (∀ c, lookupByte font c m = lookupByte font c k) → m = k := by
  intro m
  induction m with
  | nil =>
    intro k _ hk h
    rcases k with _ | ⟨e, rest⟩
    · rfl
    · have he := h e.1
      simp only [lookupByte, if_true] at he
      exact absurd he.symm (hk.2 e (List.mem_cons_self ..)).2
  | cons d rest ih =>
    intro k hm hk h
    have hd := (hm.2 d (List.mem_cons_self ..)).2
    have hdlt := (List.pairwise_cons.1 hm.1).1
    rcases k with _ | ⟨e, rest'⟩
    · have := h d.1
      simp only [lookupByte, if_true] at this
      exact absurd this hd
    · have he := (hk.2 e (List.mem_cons_self ..)).2
      have helt := (List.pairwise_cons.1 hk.1).1
      have hkey : d.1 = e.1 := by
        rcases Nat.lt_trichotomy d.1 e.1 with hlt | heq | hgt
        · have h1 := h d.1
          rw [lookupByte_of_lt (m := e :: rest')] at h1
          · simp only [lookupByte, if_true] at h1
            exact absurd h1 hd
          · intro c hc
            rcases List.mem_cons.1 hc with rfl | hc
            · exact hlt
            · exact Nat.lt_trans hlt (helt c hc)
        · exact heq
        · have h1 := h e.1
          rw [lookupByte_of_lt (m := d :: rest)] at h1
          · simp only [lookupByte, if_true] at h1
            exact absurd h1.symm he
          · intro c hc
            rcases List.mem_cons.1 hc with rfl | hc
            · exact hgt
            · exact Nat.lt_trans hgt (hdlt c hc)
      have hval : d.2 = e.2 := by
        have := h d.1
        simpa [lookupByte, hkey] using this
      have hde : d = e := Prod.ext hkey hval
      subst hde
      congr 1
      refine ih (Memory.wf_tail hm) (Memory.wf_tail hk) fun c => ?_
      by_cases hc : d.1 = c
      · rw [lookupByte_of_lt (fun f hf => hc ▸ hdlt f hf), lookupByte_of_lt (fun f hf => hc ▸ helt f hf)]
      · have := h c
        simpa [lookupByte, hc] using this

/-! Bytes of a state. -/

@[simp] theorem byteAt_setMem_storeByte (a : Nat) (b : Byte) (s : State) (c : Nat) :
    byteAt c (setMem (storeByte s.config.font a b s.mem) s) = if c = a then b else byteAt c s := by
  simp [byteAt, lookupByte_storeByte]

/-- Only the memory and the font decide what an address reads as. -/
theorem byteAt_congr {s t : State} (hm : t.mem = s.mem) (hc : t.config = s.config) (a : Nat) :
    byteAt a t = byteAt a s := by
  simp [byteAt, hm, hc]

@[simp] theorem byteAt_setI (c : Nat) (a : Word) (s : State) : byteAt c (setI a s) = byteAt c s := rfl
@[simp] theorem byteAt_setPc (c : Nat) (a : Word) (s : State) : byteAt c (setPc a s) = byteAt c s := rfl
@[simp] theorem byteAt_setDt (c : Nat) (b : Byte) (s : State) : byteAt c (setDt b s) = byteAt c s := rfl
@[simp] theorem byteAt_setSt (c : Nat) (b : Byte) (s : State) : byteAt c (setSt b s) = byteAt c s := rfl
@[simp] theorem byteAt_setStack (c : Nat) (k : List Word) (s : State) : byteAt c (setStack k s) = byteAt c s := rfl
@[simp] theorem byteAt_setPaused (c : Nat) (p : Bool) (s : State) : byteAt c (setPaused p s) = byteAt c s := rfl
@[simp] theorem byteAt_setKwx (c : Nat) (x : RegIdx) (s : State) : byteAt c (setKwx x s) = byteAt c s := rfl
@[simp] theorem byteAt_setFb (c : Nat) (f : Vector (BitVec 64) 32) (s : State) : byteAt c (setFb f s) = byteAt c s := rfl
@[simp] theorem byteAt_setTone (c : Nat) (b : Bool) (s : State) : byteAt c (setTone b s) = byteAt c s := rfl
@[simp] theorem byteAt_addRequest (c : Nat) (q : PortRequest) (s : State) : byteAt c (addRequest q s) = byteAt c s := rfl
@[simp] theorem byteAt_writeReg (c : Nat) (x : RegIdx) (b : Byte) (s : State) : byteAt c (writeReg x b s) = byteAt c s := rfl
@[simp] theorem byteAt_advancePc (c : Nat) (s : State) : byteAt c (advancePc s) = byteAt c s := rfl
@[simp] theorem byteAt_timerStep (c : Nat) (s : State) : byteAt c (timerStep s) = byteAt c s := rfl
@[simp] theorem byteAt_closeTick (c : Nat) (s : State) : byteAt c (closeTick s) = byteAt c s := rfl
@[simp] theorem byteAt_skipIf (c : Nat) (p : Bool) (s : State) : byteAt c (skipIf p s) = byteAt c s := by cases p <;> rfl

/-! The accesses. -/

theorem memRead_of_lt {s : State} (h : a < memSize) : memRead a s = .ok (byteAt a s) := by simp [memRead, h]

theorem memRead_of_ge {s : State} (h : memSize ≤ a) : memRead a s = .error (.outOfRange a) := by
  simp [memRead, Nat.not_lt.2 h]

/-- Reads from `a` up inside memory: the bytes in order. -/
theorem memReadBytes_ok (n : Nat) : ∀ (a : Nat) (s : State), a + n ≤ memSize →
    memReadBytes a n s = .ok ((List.range n).map (fun k => byteAt (a + k) s)) := by
  induction n with
  | zero => intro a s _; rfl
  | succ n ih =>
    intro a s h
    rw [memReadBytes, memRead_of_lt (by omega), ih (a + 1) s (by omega)]
    simp only [List.range_succ_eq_map, List.map_cons, List.map_map, Nat.add_zero]
    congr 2
    apply List.map_congr_left
    intro k _
    show byteAt (a + 1 + k) s = byteAt (a + (k + 1)) s
    congr 1
    omega

/-- Reads from `a` up that leave memory: the fault names the lowest address out of range. -/
theorem memReadBytes_fault (n : Nat) : ∀ (a : Nat) (s : State), memSize < a + n → 0 < n →
    memReadBytes a n s = .error (.outOfRange (max a memSize)) := by
  induction n with
  | zero => intro a s _ h; omega
  | succ n ih =>
    intro a s h _
    by_cases ha : a < memSize
    · rw [memReadBytes, memRead_of_lt ha]
      have hn : 0 < n := by omega
      simp only
      rw [ih (a + 1) s (by omega) hn]
      have : max (a + 1) memSize = max a memSize := by omega
      simp [this]
    · rw [memReadBytes, memRead_of_ge (by omega)]
      have : max a memSize = a := by omega
      simp [this]

/-- Writes from `a` up inside memory: they complete, and touch memory alone. -/
theorem memWriteBytes_ok (bs : List Byte) : ∀ (a : Nat) (s : State), a + bs.length ≤ memSize →
    ∃ m, memWriteBytes a bs s = .ok (setMem m s) ∧
      (∀ c, lookupByte s.config.font c m =
        if h : a ≤ c ∧ c - a < bs.length then bs[c - a]'h.2 else byteAt c s) ∧
      (Memory.wf s.config.font s.mem → Memory.wf s.config.font m) := by
  induction bs with
  | nil => intro a s _; exact ⟨s.mem, rfl, fun c => by simp [byteAt], id⟩
  | cons b rest ih =>
    intro a s h
    simp only [List.length_cons] at h
    have ha : a < memSize := by omega
    obtain ⟨m, hm, hread, hwf⟩ := ih (a + 1) (setMem (storeByte s.config.font a b s.mem) s) (by omega)
    refine ⟨m, ?_, ?_, fun hs => hwf (storeByte_wf hs ha)⟩
    · simp only [memWriteBytes, memWrite, ha, if_true, hm]
      rfl
    · intro c
      have := hread c
      simp only [setMem_config, byteAt_setMem_storeByte] at this
      rw [this]
      by_cases h1 : a + 1 ≤ c ∧ c - (a + 1) < rest.length
      · have h2 : a ≤ c ∧ c - a < (b :: rest).length := ⟨by omega, by simp; omega⟩
        have h3 : c - a = (c - (a + 1)) + 1 := by omega
        rw [dif_pos h1, dif_pos h2]
        simp only [h3, List.getElem_cons_succ]
      · rw [dif_neg h1]
        by_cases h2 : a ≤ c ∧ c - a < (b :: rest).length
        · have hc : c = a := by
            have := h2.2
            simp only [List.length_cons] at this
            omega
          subst hc
          simp
        · rw [dif_neg h2]
          have hc : c ≠ a := by
            intro e
            apply h2
            subst e
            simp
          simp [hc]

/-- Writes from `a` up that leave memory: the fault names the lowest address out of range. -/
theorem memWriteBytes_fault (bs : List Byte) : ∀ (a : Nat) (s : State), memSize < a + bs.length → bs ≠ [] →
    memWriteBytes a bs s = .error (.outOfRange (max a memSize)) := by
  induction bs with
  | nil => intro a s _ h; exact absurd rfl h
  | cons b rest ih =>
    intro a s h _
    simp only [List.length_cons] at h
    by_cases ha : a < memSize
    · have hr : rest ≠ [] := by
        intro e
        simp [e] at h
        omega
      simp only [memWriteBytes, memWrite, ha, if_true]
      rw [ih (a + 1) _ (by omega) hr]
      have : max (a + 1) memSize = max a memSize := by omega
      simp [this]
    · have : max a memSize = a := by omega
      simp [memWriteBytes, memWrite, ha, this]

/-- Whatever the writes answer, a next state differs from the state before in memory alone. -/
theorem memWriteBytes_next {bs : List Byte} {a : Nat} {s t : State} (h : memWriteBytes a bs s = .ok t) :
    ∃ m, t = setMem m s ∧ (Memory.wf s.config.font s.mem → Memory.wf s.config.font m) := by
  by_cases hr : a + bs.length ≤ memSize
  · obtain ⟨m, hm, -, hwf⟩ := memWriteBytes_ok bs a s hr
    rw [hm] at h
    exact ⟨m, by injection h with h; exact h.symm, hwf⟩
  · rcases bs with _ | ⟨b, rest⟩
    · simp only [memWriteBytes, Except.ok.injEq] at h
      exact ⟨s.mem, h ▸ rfl, id⟩
    · rw [memWriteBytes_fault _ a s (by omega) (by simp)] at h
      cases h

/-- Placing bytes inside memory keeps the canonical form and changes only their own addresses. -/
theorem placeBytes_read (font : Vector Byte 80) (bs : List Byte) : ∀ (a : Nat) (m : Memory) (c : Nat),
    lookupByte font c (placeBytes font a bs m) =
      if h : a ≤ c ∧ c - a < bs.length then bs[c - a]'h.2 else lookupByte font c m := by
  induction bs with
  | nil => intro a m c; simp [placeBytes]
  | cons b rest ih =>
    intro a m c
    rw [placeBytes, ih, lookupByte_storeByte]
    by_cases h1 : a + 1 ≤ c ∧ c - (a + 1) < rest.length
    · have h2 : a ≤ c ∧ c - a < (b :: rest).length := ⟨by omega, by simp; omega⟩
      have h3 : c - a = (c - (a + 1)) + 1 := by omega
      rw [dif_pos h1, dif_pos h2]
      simp only [h3, List.getElem_cons_succ]
    · rw [dif_neg h1]
      by_cases h2 : a ≤ c ∧ c - a < (b :: rest).length
      · have hc : c = a := by
          have := h2.2
          simp only [List.length_cons] at this
          omega
        subst hc
        simp
      · rw [dif_neg h2]
        have hc : c ≠ a := by
          intro e
          apply h2
          subst e
          simp
        simp [hc]

theorem placeBytes_wf (bs : List Byte) : ∀ (a : Nat) (m : Memory), Memory.wf font m → a + bs.length ≤ memSize →
    Memory.wf font (placeBytes font a bs m) := by
  induction bs with
  | nil => intro a m h _; exact h
  | cons b rest ih =>
    intro a m h hr
    simp only [List.length_cons] at hr
    exact ih (a + 1) _ (storeByte_wf h (by omega)) (by omega)

/-- Reset lists nothing, which is canonical. -/
theorem reset_mem_wf : Memory.wf State.reset.config.font State.reset.mem := ⟨List.Pairwise.nil, by simp [State.reset]⟩

end Sys2Proof.Machine
end

