-- ==== Sys2Proof/Laws/Display.lean ====
section
/-! SUPPORT. The reference display: what one toggle does to every pixel, what a sequence of toggles at distinct places does,
and which places a sprite has. -/

namespace Sys2Proof.Machine

/-- Two coordinate pairs wrap to one pixel. -/
def SamePlace (p q : Nat × Nat) : Prop := p.1 % 64 = q.1 % 64 ∧ p.2 % 32 = q.2 % 32

theorem pixelAt_congr {s t : State} (h : t.fb = s.fb) (c r : Nat) : pixelAt c r t = pixelAt c r s := by
  simp [pixelAt, h]

@[simp] theorem pixelAt_setI (c r : Nat) (a : Word) (s : State) : pixelAt c r (setI a s) = pixelAt c r s := rfl
@[simp] theorem pixelAt_setPc (c r : Nat) (a : Word) (s : State) : pixelAt c r (setPc a s) = pixelAt c r s := rfl
@[simp] theorem pixelAt_setDt (c r : Nat) (b : Byte) (s : State) : pixelAt c r (setDt b s) = pixelAt c r s := rfl
@[simp] theorem pixelAt_setSt (c r : Nat) (b : Byte) (s : State) : pixelAt c r (setSt b s) = pixelAt c r s := rfl
@[simp] theorem pixelAt_setStack (c r : Nat) (k : List Word) (s : State) : pixelAt c r (setStack k s) = pixelAt c r s := rfl
@[simp] theorem pixelAt_setPaused (c r : Nat) (p : Bool) (s : State) : pixelAt c r (setPaused p s) = pixelAt c r s := rfl
@[simp] theorem pixelAt_setKwx (c r : Nat) (x : RegIdx) (s : State) : pixelAt c r (setKwx x s) = pixelAt c r s := rfl
@[simp] theorem pixelAt_setMem (c r : Nat) (m : Memory) (s : State) : pixelAt c r (setMem m s) = pixelAt c r s := rfl
@[simp] theorem pixelAt_setTone (c r : Nat) (b : Bool) (s : State) : pixelAt c r (setTone b s) = pixelAt c r s := rfl
@[simp] theorem pixelAt_addRequest (c r : Nat) (q : PortRequest) (s : State) :
    pixelAt c r (addRequest q s) = pixelAt c r s := rfl
@[simp] theorem pixelAt_writeReg (c r : Nat) (x : RegIdx) (b : Byte) (s : State) :
    pixelAt c r (writeReg x b s) = pixelAt c r s := rfl
@[simp] theorem pixelAt_advancePc (c r : Nat) (s : State) : pixelAt c r (advancePc s) = pixelAt c r s := rfl
@[simp] theorem pixelAt_timerStep (c r : Nat) (s : State) : pixelAt c r (timerStep s) = pixelAt c r s := rfl
@[simp] theorem pixelAt_closeTick (c r : Nat) (s : State) : pixelAt c r (closeTick s) = pixelAt c r s := rfl
@[simp] theorem pixelAt_skipIf (c r : Nat) (p : Bool) (s : State) : pixelAt c r (skipIf p s) = pixelAt c r s := by
  cases p <;> rfl

theorem pixelAt_mod (c r : Nat) (s : State) : pixelAt (c % 64) (r % 32) s = pixelAt c r s := by
  simp [pixelAt]

/-- Coordinates that wrap to one place read one pixel. -/
theorem pixelAt_of_samePlace {p q : Nat × Nat} (h : SamePlace p q) (s : State) :
    pixelAt p.1 p.2 s = pixelAt q.1 q.2 s := by
  rw [← pixelAt_mod p.1, ← pixelAt_mod q.1, h.1, h.2]

@[simp] theorem pixelAt_displayClear (c r : Nat) (s : State) : pixelAt c r (displayClear s) = false := by
  simp [pixelAt, displayClear]

theorem setPixel_fst (x y : Nat) (s : State) : (setPixel x y s).1 = pixelAt x y s := rfl

/-- A toggle flips the pixel it names and keeps every other. -/
theorem pixelAt_setPixel (x y : Nat) (s : State) (c r : Nat) [Decidable (SamePlace (c, r) (x, y))] :
    pixelAt c r (setPixel x y s).2 = if SamePlace (c, r) (x, y) then !pixelAt c r s else pixelAt c r s := by
  have h64 : c % 64 < 64 := Nat.mod_lt _ (by decide)
  by_cases hr : r % 32 = y % 32
  · have hrow : pixelAt c r (setPixel x y s).2 =
        (pixelAt c r s ^^ decide (c % 64 = x % 64)) := by
      have hbit : ((1#64 <<< (x % 64)).getLsbD (c % 64)) = decide (c % 64 = x % 64) := by
        have hx : x % 64 < 64 := Nat.mod_lt _ (by decide)
        simp only [BitVec.getLsbD_shiftLeft, h64, decide_true, Bool.true_and, BitVec.getLsbD_one]
        by_cases h : c % 64 = x % 64
        · simp [h]
        · simp [h]
          omega
      simp [pixelAt, setPixel, hr, hbit]
    rw [hrow]
    by_cases hc : c % 64 = x % 64
    · rw [if_pos (show SamePlace (c, r) (x, y) from ⟨hc, hr⟩)]
      simp [hc]
    · rw [if_neg (fun h : SamePlace (c, r) (x, y) => hc h.1)]
      simp [hc]
  · rw [if_neg (fun h : SamePlace (c, r) (x, y) => hr h.2)]
    have : y % 32 ≠ r % 32 := fun e => hr e.symm
    simp [pixelAt, setPixel, this]

/-- The requests of a sequence of toggles: one a pixel, in order. -/
theorem setPixels_requests (ps : List (Nat × Nat)) : ∀ s : State,
    (setPixels ps s).2.requests = s.requests ++ ps.map (fun p => PortRequest.setPixel p.1 p.2) := by
  induction ps with
  | nil => intro s; simp [setPixels]
  | cons p rest ih =>
    intro s
    simp only [setPixels, ih, List.map_cons]
    simp [setPixel]

/-- A sequence of toggles touches the display and the request record alone. -/
theorem setPixels_eq (ps : List (Nat × Nat)) : ∀ s : State,
    ∃ fb rs, (setPixels ps s).2 = { s with fb := fb, requests := rs } := by
  induction ps with
  | nil => intro s; exact ⟨s.fb, s.requests, rfl⟩
  | cons p rest ih =>
    intro s
    obtain ⟨fb, rs, h⟩ := ih (setPixel p.1 p.2 s).2
    exact ⟨fb, rs, by simp only [setPixels, h]; rfl⟩

/-- A sequence of toggles at pairwise distinct places flips exactly those places. -/
theorem pixelAt_setPixels (ps : List (Nat × Nat)) : ∀ (s : State) (c r : Nat),
    ps.Pairwise (fun p q => ¬ SamePlace p q) →
    ((∃ p ∈ ps, SamePlace (c, r) p) → pixelAt c r (setPixels ps s).2 = !pixelAt c r s) ∧
    ((¬ ∃ p ∈ ps, SamePlace (c, r) p) → pixelAt c r (setPixels ps s).2 = pixelAt c r s) := by
  classical
  induction ps with
  | nil => intro s c r _; exact ⟨fun h => by simp at h, fun _ => rfl⟩
  | cons p rest ih =>
    intro s c r hp
    obtain ⟨hfirst, hrest⟩ := List.pairwise_cons.1 hp
    have hone := pixelAt_setPixel p.1 p.2 s c r
    obtain ⟨ihy, ihn⟩ := ih (setPixel p.1 p.2 s).2 c r hrest
    by_cases hc : SamePlace (c, r) p
    · have hnot : ¬ ∃ q ∈ rest, SamePlace (c, r) q := by
        rintro ⟨q, hq, h⟩
        exact hfirst q hq ⟨hc.1.symm.trans h.1, hc.2.symm.trans h.2⟩
      have hflip : pixelAt c r (setPixels (p :: rest) s).2 = !pixelAt c r s := by
        rw [setPixels, ihn hnot, hone, if_pos hc]
      exact ⟨fun _ => hflip, fun h => absurd ⟨p, List.mem_cons_self .., hc⟩ h⟩
    · have hkeep : pixelAt c r (setPixel p.1 p.2 s).2 = pixelAt c r s := by rw [hone, if_neg hc]
      constructor
      · rintro ⟨q, hq, h⟩
        rcases List.mem_cons.1 hq with rfl | hq
        · exact absurd h hc
        · rw [setPixels, ihy ⟨q, hq, h⟩, hkeep]
      · intro h
        have hnot : ¬ ∃ q ∈ rest, SamePlace (c, r) q := by
          rintro ⟨q, hq, h'⟩
          exact h ⟨q, List.mem_cons_of_mem _ hq, h'⟩
        rw [setPixels, ihn hnot, hkeep]

/-- A sequence of toggles at pairwise distinct places reports a collision exactly when one of them was on before. -/
theorem setPixels_fst (ps : List (Nat × Nat)) : ∀ s : State, ps.Pairwise (fun p q => ¬ SamePlace p q) →
    ((setPixels ps s).1 = true ↔ ∃ p ∈ ps, pixelAt p.1 p.2 s = true) := by
  classical
  induction ps with
  | nil => intro s _; simp [setPixels]
  | cons p rest ih =>
    intro s hp
    obtain ⟨hfirst, hrest⟩ := List.pairwise_cons.1 hp
    have hkeep : ∀ q ∈ rest, pixelAt q.1 q.2 (setPixel p.1 p.2 s).2 = pixelAt q.1 q.2 s := by
      intro q hq
      rw [pixelAt_setPixel, if_neg (fun h : SamePlace (q.1, q.2) (p.1, p.2) => hfirst q hq ⟨h.1.symm, h.2.symm⟩)]
    simp only [setPixels, Bool.or_eq_true, setPixel_fst, ih _ hrest, List.exists_mem_cons_iff]
    constructor
    · rintro (h | ⟨q, hq, h⟩)
      · exact .inl h
      · exact .inr ⟨q, hq, by rw [← hkeep q hq]; exact h⟩
    · rintro (h | ⟨q, hq, h⟩)
      · exact .inl h
      · exact .inr ⟨q, hq, by rw [hkeep q hq]; exact h⟩

/-! The places of a sprite. -/

theorem mem_rowPixels {vx y : Nat} {b : Byte} {p : Nat × Nat} :
    p ∈ rowPixels vx y b ↔ ∃ col, col < 8 ∧ b.getLsbD (7 - col) = true ∧ p = (vx + col, y) := by
  simp only [rowPixels, List.mem_map, List.mem_filter, List.mem_range]
  constructor
  · rintro ⟨col, ⟨h8, hb⟩, rfl⟩
    exact ⟨col, h8, hb, rfl⟩
  · rintro ⟨col, h8, hb, rfl⟩
    exact ⟨col, ⟨h8, hb⟩, rfl⟩

/-- A place is a sprite's when its row byte has the column's bit set. -/
theorem mem_spritePixels {bs : List Byte} : ∀ {vx y : Nat} {p : Nat × Nat},
    p ∈ spritePixels vx y bs ↔
      ∃ row col, ∃ h : row < bs.length, col < 8 ∧ bs[row].getLsbD (7 - col) = true ∧ p = (vx + col, y + row) := by
  induction bs with
  | nil => intro vx y p; simp [spritePixels]
  | cons b rest ih =>
    intro vx y p
    rw [spritePixels, List.mem_append, mem_rowPixels, ih]
    constructor
    · rintro (⟨col, h8, hb, rfl⟩ | ⟨row, col, hr, h8, hb, rfl⟩)
      · exact ⟨0, col, by simp, h8, by simpa using hb, by simp⟩
      · exact ⟨row + 1, col, by simpa using hr, h8, by simpa using hb, by simp [Nat.add_assoc, Nat.add_comm 1]⟩
    · rintro ⟨row, col, hr, h8, hb, rfl⟩
      rcases row with _ | row
      · exact .inl ⟨col, h8, by simpa using hb, by simp⟩
      · exact .inr ⟨row, col, by simpa using hr, h8, by simpa using hb, by simp [Nat.add_assoc, Nat.add_comm 1]⟩

theorem rowPixels_pairwise (vx y : Nat) (b : Byte) :
    (rowPixels vx y b).Pairwise (fun p q => ¬ SamePlace p q) := by
  unfold rowPixels
  rw [List.pairwise_map]
  have hlt : (List.range 8).Pairwise (· < ·) := List.pairwise_lt_range
  have hmem : ∀ c ∈ (List.range 8).filter (fun col => b.getLsbD (7 - col)), c < 8 := by
    intro c hc
    exact List.mem_range.1 (List.mem_of_mem_filter hc)
  refine List.Pairwise.imp_of_mem ?_ (hlt.filter _)
  intro c d hc hd hcd h
  have := hmem c hc
  have := hmem d hd
  have := h.1
  simp only at this
  omega

/-- No pixel of a sprite of at most 32 rows is hit twice (44_display.md R201 (b)). -/
theorem spritePixels_pairwise (bs : List Byte) : ∀ (vx y : Nat), bs.length ≤ 32 →
    (spritePixels vx y bs).Pairwise (fun p q => ¬ SamePlace p q) := by
  induction bs with
  | nil => intro vx y _; exact List.Pairwise.nil
  | cons b rest ih =>
    intro vx y h
    simp only [List.length_cons] at h
    rw [spritePixels, List.pairwise_append]
    refine ⟨rowPixels_pairwise vx y b, ih vx (y + 1) (by omega), ?_⟩
    intro p hp q hq hs
    obtain ⟨_, _, _, rfl⟩ := mem_rowPixels.1 hp
    obtain ⟨row, _, hr, _, _, rfl⟩ := mem_spritePixels.1 hq
    have := hs.2
    simp only at this
    omega

end Sys2Proof.Machine
end

