-- ==== Sys2Proof/Laws/Engine.lean ====
section
/-! SUPPORT. The engine: the outcomes combined, fetch, key-press delivery, and everything a step that answers a next state
can have done. -/

namespace Sys2Proof.Machine

/-! Combining outcomes. -/

@[simp] theorem thenNext_next (s : State) (k : State → State) : thenNext (.next s) k = .next (k s) := rfl
@[simp] theorem thenNext_fault (f : Fault) (k : State → State) : thenNext (.fault f) k = .fault f := rfl
@[simp] theorem thenNext_refused (r : Refusal) (k : State → State) : thenNext (.refused r) k = .refused r := rfl
@[simp] theorem orRaise_ok {α : Type} (a : α) (k : α → Result) : orRaise (.ok a) k = k a := rfl
@[simp] theorem orRaise_error {α : Type} (f : Fault) (k : α → Result) : orRaise (.error f) k = .fault f := rfl
@[simp] theorem raise_eq (f : Fault) : raise f = .fault f := rfl

theorem thenNext_eq_next {o : Result} {k : State → State} {t : State} :
    thenNext o k = .next t ↔ ∃ u, o = .next u ∧ t = k u := by
  cases o with
  | next u => simp [eq_comm]
  | fault f => simp
  | refused r => simp

theorem thenNext_eq_fault {o : Result} {k : State → State} {f : Fault} : thenNext o k = .fault f ↔ o = .fault f := by
  cases o <;> simp

theorem thenNext_eq_refused {o : Result} {k : State → State} {r : Refusal} :
    thenNext o k = .refused r ↔ o = .refused r := by
  cases o <;> simp

/-! The frame predicate. -/

theorem OnlyChanges.mono {ps qs : List Part} {s t : State} (h : OnlyChanges ps s t) (hs : ∀ p ∈ ps, p ∈ qs) :
    OnlyChanges qs s t := fun p hp => h p (fun hm => hp (hs p hm))

theorem OnlyChanges.trans {ps : List Part} {s t u : State} (h : OnlyChanges ps s t) (k : OnlyChanges ps t u) :
    OnlyChanges ps s u := by
  intro p hp
  have h1 := h p hp
  have h2 := k p hp
  cases p <;> simp only [Same] at h1 h2 ⊢
  all_goals first
    | exact h2.trans h1
    | exact fun r => (h2 r).trans (h1 r)
    | exact fun c r => (h2 c r).trans (h1 c r)

/-! Fetch. -/

theorem fetchWord_ok {s : State} (h : s.pc.toNat + 1 < memSize) :
    fetchWord s = .ok (wordOfBytes (byteAt s.pc.toNat s) (byteAt (s.pc.toNat + 1) s)) := by
  rw [fetchWord, memRead_of_lt (by omega), memRead_of_lt h]

theorem fetchWord_fault {s : State} (h : memSize ≤ s.pc.toNat + 1) :
    fetchWord s = .error (.outOfRange (max s.pc.toNat memSize)) := by
  by_cases h1 : s.pc.toNat < memSize
  · have h2 : s.pc.toNat + 1 = max s.pc.toNat memSize := by omega
    rw [fetchWord, memRead_of_lt h1, h2, memRead_of_ge (by omega)]
  · have h2 : max s.pc.toNat memSize = s.pc.toNat := by omega
    rw [fetchWord, memRead_of_ge (by omega), h2]

/-- What a fetched word was read from. -/
theorem fetchWord_eq_ok {s : State} {w : Word} (h : fetchWord s = .ok w) :
    s.pc.toNat + 1 < memSize ∧ w = wordOfBytes (byteAt s.pc.toNat s) (byteAt (s.pc.toNat + 1) s) := by
  by_cases h1 : s.pc.toNat + 1 < memSize
  · rw [fetchWord_ok h1] at h
    exact ⟨h1, by injection h with h; exact h.symm⟩
  · rw [fetchWord_fault (by omega)] at h
    cases h

/-- A word decodes to one instruction, so a state fetches one. -/
theorem Fetches.unique {i j : Instr} {s : State} (hi : Fetches i s) (hj : Fetches j s) : i = j := by
  have := hi.2.symm.trans hj.2
  injection this

/-- An instruction step that answers a next state executed the instruction it fetched. -/
theorem instructionStep_eq_next {s t : State} (h : instructionStep s = .next t) :
    ∃ i, Fetches i s ∧ exec i (advancePc s) = .next t := by
  unfold instructionStep at h
  cases hw : fetchWord s with
  | error f => simp [hw] at h
  | ok w =>
    obtain ⟨hpc, rfl⟩ := fetchWord_eq_ok hw
    simp only [hw, orRaise_ok, execWord] at h
    split at h
    · rename_i i hi
      exact ⟨i, ⟨hpc, hi⟩, h⟩
    · cases h

/-! Key-press delivery. -/

theorem keyPress_of_waiting {s : State} (h : Waiting s) (k : KeyCode) :
    keyPress k s = setPaused false (writeReg s.kwx (BitVec.ofNat 8 k.val) s) := by
  simp [keyPress, h.1, h.2]

theorem keyPress_of_not_waiting {s : State} (h : ¬ Waiting s) (k : KeyCode) : keyPress k s = s := by
  have : (s.fault.isNone && s.paused) = false := by
    by_contra hc
    apply h
    simp only [Bool.not_eq_false, Bool.and_eq_true, Option.isNone_iff_eq_none] at hc
    exact hc
  simp [keyPress, this]

theorem deliverKeys_of_not_waiting {s : State} (h : ¬ Waiting s) (ks : List KeyCode) : deliverKeys ks s = s := by
  have : (s.fault.isNone && s.paused) = false := by
    by_contra hc
    apply h
    simp only [Bool.not_eq_false, Bool.and_eq_true, Option.isNone_iff_eq_none] at hc
    exact hc
  simp [deliverKeys, this]

theorem deliverKeys_of_running {s : State} (h : Running s) (ks : List KeyCode) : deliverKeys ks s = s := by
  simp [deliverKeys, h.2]

theorem deliverKeys_nil (s : State) : deliverKeys [] s = s := by simp [deliverKeys]

theorem deliverKeys_cons_of_waiting {s : State} (h : Waiting s) (k : KeyCode) (ks : List KeyCode) :
    deliverKeys (k :: ks) s = keyPress k s := by
  simp [deliverKeys, h.1, h.2]

/-- Delivery changes a register and `paused` at most. -/
theorem deliverKeys_eq (ks : List KeyCode) (s : State) :
    ∃ v p, deliverKeys ks s = { s with v := v, paused := p } := by
  by_cases h : Waiting s
  · rcases ks with _ | ⟨k, ks⟩
    · exact ⟨s.v, s.paused, deliverKeys_nil s⟩
    · exact ⟨_, false, (deliverKeys_cons_of_waiting h k ks).trans (keyPress_of_waiting h k)⟩
  · exact ⟨s.v, s.paused, deliverKeys_of_not_waiting h ks⟩

/-! The step. -/

theorem step_eq (s : State) : step s =
    if s.fault.isSome then .next s
    else thenNext (tick (deliverKeys (currentInput s).keyPresses s)) closeTick := rfl

/-- Everything a step that answers a next state can have done: nothing in a halted core; the timer step in a core that
still waits after the events; else the instruction fetched, and the timer step. -/
theorem step_next_cases {s t : State} (h : step s = .next t) :
    (s.fault ≠ none ∧ t = s) ∨
    (s.fault = none ∧ ∃ u, u = deliverKeys (currentInput s).keyPresses s ∧
      ((u.paused = true ∧ t = closeTick (timerStep u)) ∨
       (u.paused = false ∧ ∃ i w, Fetches i u ∧ exec i (advancePc u) = .next w ∧ t = closeTick (timerStep w)))) := by
  rw [step_eq] at h
  by_cases hf : s.fault = none
  · refine .inr ⟨hf, _, rfl, ?_⟩
    obtain ⟨v, p, hd⟩ := deliverKeys_eq (currentInput s).keyPresses s
    have hdf : (deliverKeys (currentInput s).keyPresses s).fault = none := by rw [hd]; exact hf
    simp only [hf, Option.isSome_none, Bool.false_eq_true, if_false] at h
    obtain ⟨w, hw, rfl⟩ := thenNext_eq_next.1 h
    rw [tick] at hw
    simp only [hdf, Option.isSome_none, Bool.false_eq_true, if_false] at hw
    cases hp : (deliverKeys (currentInput s).keyPresses s).paused with
    | true =>
      simp only [hp, if_true, Host.Outcome.next.injEq] at hw
      exact .inl ⟨rfl, by rw [← hw]⟩
    | false =>
      simp only [hp, Bool.false_eq_true, if_false] at hw
      obtain ⟨x, hx, rfl⟩ := thenNext_eq_next.1 hw
      obtain ⟨i, hi, he⟩ := instructionStep_eq_next hx
      exact .inr ⟨rfl, i, x, hi, he, rfl⟩
  · have : s.fault.isSome = true := by
      cases hs : s.fault with
      | none => exact absurd hs hf
      | some f => rfl
    simp only [this, if_true, Host.Outcome.next.injEq] at h
    exact .inl ⟨hf, h.symm⟩

/-! Runs. -/

theorem runTicks_of_next {n : Nat} {s t : State} (h : step s = .next t) : runTicks (n + 1) s = runTicks n t := by
  simp only [runTicks, h]

theorem coreRun_of_next {M : Host.Core} {n : Nat} {s t : M.State} (h : M.step s = .next t) :
    M.run (n + 1) s = M.run n t := by
  simp only [Host.Core.run, h]

theorem coreRun_of_fault {M : Host.Core} {n : Nat} {s : M.State} {f : M.Fault} (h : M.step s = .fault f) :
    M.run (n + 1) s = .fault f := by
  simp only [Host.Core.run, h]

theorem coreRun_of_refused {M : Host.Core} {n : Nat} {s : M.State} {r : M.Refusal} (h : M.step s = .refused r) :
    M.run (n + 1) s = .refused r := by
  simp only [Host.Core.run, h]

/-- The host's run of the core is the model's own run of ticks. -/
theorem coreRun_eq_runTicks (n : Nat) : ∀ s : State, Sys2Proof.core.run n s = runTicks n s := by
  induction n with
  | zero => intro s; rfl
  | succ n ih =>
    intro s
    cases h : step s with
    | next t => exact (coreRun_of_next (M := Sys2Proof.core) h).trans ((ih t).trans (runTicks_of_next h).symm)
    | fault f =>
      refine (coreRun_of_fault (M := Sys2Proof.core) h).trans ?_
      simp only [runTicks, h]
      rfl
    | refused r =>
      refine (coreRun_of_refused (M := Sys2Proof.core) h).trans ?_
      simp only [runTicks, h]
      rfl

/-! The timer step. -/

theorem decTimer_toNat (b : Byte) : (decTimer b).toNat = b.toNat - 1 := by
  unfold decTimer
  split
  · rename_i h
    simp [h]
  · rename_i h
    have h0 : b.toNat ≠ 0 := fun e => h (BitVec.eq_of_toNat_eq (by simpa using e))
    have := b.isLt
    rw [BitVec.toNat_sub]
    simp
    omega

end Sys2Proof.Machine
end

