-- ==== Sys2Proof/Laws/Frame.lean ====
section
/-! SUPPORT. What each shared write leaves alone, in the terms of Sys2Proof/Safety.lean; and which places of the display a
sprite covers. -/

namespace Sys2Proof.Machine

theorem regsKeptBut_writeReg (x : RegIdx) (b : Byte) (s : State) : RegsKeptBut [x] s (writeReg x b s) := by
  intro r hr
  simp only [List.mem_singleton] at hr
  simp [hr]

theorem regsKeptBut_writeReg_writeFlag (x : RegIdx) (b c : Byte) (s : State) :
    RegsKeptBut [x, flagReg] s (writeReg x b (writeFlag c s)) := by
  intro r hr
  simp only [List.mem_cons, List.not_mem_nil, or_false, not_or] at hr
  simp [writeFlag, hr]

theorem onlyChanges_writeReg (x : RegIdx) (b : Byte) (s : State) : OnlyChanges [.v] s (writeReg x b s) := by
  intro p hp
  cases p <;> simp [Same] at *

theorem onlyChanges_writeReg_writeFlag (x : RegIdx) (b c : Byte) (s : State) :
    OnlyChanges [.v] s (writeReg x b (writeFlag c s)) :=
  (onlyChanges_writeReg flagReg c s).trans (onlyChanges_writeReg x b _)

theorem onlyChanges_setI (a : Word) (s : State) : OnlyChanges [.i] s (setI a s) := by
  intro p hp
  cases p <;> simp [Same] at *

theorem onlyChanges_setPc (a : Word) (s : State) : OnlyChanges [.pc] s (setPc a s) := by
  intro p hp
  cases p <;> simp [Same] at *

theorem onlyChanges_skipIf (c : Bool) (s : State) : OnlyChanges [.pc] s (skipIf c s) := by
  intro p hp
  cases p <;> simp [Same] at *

theorem onlyChanges_setMem (m : Memory) (s : State) : OnlyChanges [.mem] s (setMem m s) := by
  intro p hp
  cases p <;> simp [Same] at *

/-- A block load of registers touches the register file alone. -/
theorem onlyChanges_writeRegs (k : Nat) (bs : List Byte) (s : State) : OnlyChanges [.v] s (writeRegs k bs s) := by
  obtain ⟨v, hv⟩ := writeRegs_eq_set_v bs k s
  rw [hv]
  intro p hp
  cases p <;> simp only [Same, List.mem_singleton, not_true_eq_false] at *
  all_goals intros; rfl

/-- The calls of a sprite touch the display and the request record alone. -/
theorem onlyChanges_setPixels (ps : List (Nat × Nat)) (s : State) : OnlyChanges [.fb, .requests] s (setPixels ps s).2 := by
  obtain ⟨fb, rs, hs⟩ := setPixels_eq ps s
  rw [hs]
  intro p hp
  cases p <;> simp only [Same, List.mem_cons, true_or, or_true, not_true_eq_false] at *
  all_goals intros; rfl

/-- The rows `Dxyn` reads. -/
def spriteRows (n : Nat) (s : State) : List Byte := (List.range n).map (fun k => byteAt (s.i.toNat + k) s)

/-- A pixel is covered when it is one of the sprite's places. -/
theorem covered_iff {s : State} {vx vy n c r : Nat} (hc : c < 64) (hr : r < 32) :
    Covered s vx vy n c r ↔ ∃ p ∈ spritePixels vx vy (spriteRows n s), SamePlace (c, r) p := by
  simp only [mem_spritePixels]
  constructor
  · rintro ⟨row, col, h1, h2, h3, h4, h5⟩
    refine ⟨_, ⟨row, col, by simpa [spriteRows] using h1, h2, by simpa [spriteRows] using h3, rfl⟩, ?_, ?_⟩
    · simp only
      omega
    · simp only
      omega
  · rintro ⟨p, ⟨row, col, h1, h2, h3, rfl⟩, h4, h5⟩
    simp only [spriteRows, List.length_map, List.length_range, List.getElem_map, List.getElem_range] at h1 h3
    simp only at h4 h5
    exact ⟨row, col, h1, h2, h3, by omega, by omega⟩

/-- A pixel under a 1 bit of the sprite has a given value exactly when one of the sprite's places has. -/
theorem covered_value_iff {s : State} {vx vy n : Nat} (q : Bool) :
    (∃ c r, Covered s vx vy n c r ∧ pixelAt c r s = q) ↔
      ∃ p ∈ spritePixels vx vy (spriteRows n s), pixelAt p.1 p.2 s = q := by
  constructor
  · rintro ⟨c, r, h, hp⟩
    have hc : c < 64 ∧ r < 32 := by
      obtain ⟨row, col, _, _, _, h4, h5⟩ := h
      omega
    obtain ⟨p, hp1, hp2⟩ := (covered_iff hc.1 hc.2).1 h
    exact ⟨p, hp1, by rw [← pixelAt_of_samePlace hp2]; exact hp⟩
  · rintro ⟨p, hp, h⟩
    refine ⟨p.1 % 64, p.2 % 32, (covered_iff (by omega) (by omega)).2 ⟨p, hp, ?_, ?_⟩, by rw [pixelAt_mod]; exact h⟩
    · simp
    · simp

end Sys2Proof.Machine
end

