-- ==== Sys2Proof/Laws/HostPort.lean ====
section
/-! SUPPORT. The host port: when the accessors act, the state a faulting frame is left in, the calls its last tick may have
made, and the condition under which a result is read. -/

namespace Sys2Proof.Machine

/-! Accessors. -/

theorem betweenFrames_of_idle {α : Type} {s : State} (h : s.midFrame = false) (r : HostValue α) :
    betweenFrames s r = r := by simp [betweenFrames, h]

theorem betweenFrames_of_midFrame {α : Type} {s : State} (h : s.midFrame = true) (r : HostValue α) :
    betweenFrames s r = .refused .accessDuringFrame := by simp [betweenFrames, h]

theorem betweenFramesDo_of_idle {s : State} (h : s.midFrame = false) (r : HostReply) : betweenFramesDo s r = r := by
  simp [betweenFramesDo, h]

theorem betweenFramesDo_of_midFrame {s : State} (h : s.midFrame = true) (r : HostReply) :
    betweenFramesDo s r = .refused .accessDuringFrame := by simp [betweenFramesDo, h]

theorem hostRead_natCast {s : State} (h : s.midFrame = false) {n : Nat} (hn : n < memSize) :
    hostRead n s = .value (byteAt n s) := by
  simp only [hostRead, betweenFrames_of_idle h, memRead_of_lt hn]

theorem hostWrite_natCast {s : State} (h : s.midFrame = false) {n : Nat} (hn : n < memSize) (b : Byte) :
    hostWrite n b s = .done (setMem (storeByte s.config.font n b s.mem) s) := by
  simp only [hostWrite, betweenFramesDo_of_idle h, memWrite, hn, if_true]

/-! Frames. -/

/-- Where a run of ticks faults: after some completed ticks, in the state `lastState` names. -/
theorem lastState_of_fault {n : Nat} {f : Fault} : ∀ {s : State}, runTicks n s = .fault f →
    ∃ k < n, runTicks k s = .next (lastState n s) ∧ step (lastState n s) = .fault f := by
  induction n with
  | zero => intro s h; cases h
  | succ n ih =>
    intro s h
    cases hs : step s with
    | next t =>
      rw [runTicks_of_next hs] at h
      obtain ⟨k, hk, h1, h2⟩ := ih h
      simp only [lastState, hs]
      exact ⟨k + 1, by omega, (runTicks_of_next hs).trans h1, h2⟩
    | fault g =>
      simp only [runTicks, hs, Host.Outcome.fault.injEq] at h
      simp only [lastState, hs]
      exact ⟨0, Nat.succ_pos n, rfl, by rw [h]⟩
    | refused r => simp [runTicks, hs] at h

/-- A frame that faults is left halted, by the tick that began in `lastState`. -/
theorem runFrame_of_fault {u s : State} {f : Fault} (hf : s.fault = none) (h : runTicks s.config.speed s = .fault f) :
    runFrame u s = .reported f (haltCore f u (lastState s.config.speed s)) := by
  simp only [runFrame, hf, h]

@[simp] theorem rowsInMemory_length (n : Nat) (s : State) :
    (rowsInMemory n s).length = min n (memSize - dataAddr 0 s) := by simp [rowsInMemory]

theorem rowsInMemory_get (n : Nat) (s : State) (k : Nat) (h : k < (rowsInMemory n s).length) :
    (rowsInMemory n s)[k] = byteAt (dataAddr k s) s := by simp [rowsInMemory]

/-- A call a faulting tick may have made is one of the `Dxyn` it fetched. -/
theorem mem_faultingCalls {s : State} {p : Nat × Nat} (h : p ∈ faultingCalls s) :
    ∃ x y n, Fetches (.drw x y n) (deliverKeys (currentInput s).keyPresses s) ∧
      p ∈ spritePixels (readReg x (deliverKeys (currentInput s).keyPresses s)).toNat
        (readReg y (deliverKeys (currentInput s).keyPresses s)).toNat
        (rowsInMemory n.val (deliverKeys (currentInput s).keyPresses s)) := by
  unfold faultingCalls at h
  cases hw : fetchWord (deliverKeys (currentInput s).keyPresses s) with
  | error e => simp [hw] at h
  | ok w =>
    obtain ⟨hpc, rfl⟩ := fetchWord_eq_ok hw
    simp only [hw] at h
    split at h
    · rename_i x y n hi
      exact ⟨x, y, n, ⟨hpc, hi⟩, h⟩
    · cases h

/-- The calls made are among the possible ones. -/
theorem mem_callsMade {u s : State} {q : PortRequest} (h : q ∈ callsMade u s) :
    ∃ p ∈ faultingCalls s, q = .setPixel p.1 p.2 := by
  obtain ⟨p, hp, rfl⟩ := List.mem_map.1 (List.mem_filter.1 h).1
  exact ⟨p, hp, rfl⟩

/-! The result of a program. -/

theorem arrivedAt_iff {a : Word} {s : State} : arrivedAt a s = true ↔ Running s ∧ s.pc = a := by
  unfold arrivedAt runState Running
  cases hf : s.fault <;> cases hp : s.paused <;> simp

theorem resultState_of_arrived {a : Word} {s : State} (h : arrivedAt a s = true) (n : Nat) :
    resultState a n s = some s := by
  cases n <;> simp [resultState, h]

theorem resultState_of_next {a : Word} {s t : State} (h : ¬ arrivedAt a s = true) (hs : step s = .next t) (n : Nat) :
    resultState a (n + 1) s = resultState a n t := by
  simp [resultState, h, hs]

end Sys2Proof.Machine
end

