-- ==== Sys2Proof/Laws/PerInstr.lean ====
section
/-! SUPPORT. The per-instruction family `EncodingRow`: the word of an instruction has every fixed digit of its row of
30_encoding.md R97. One lemma a format, one lemma a constructor. -/

namespace Sys2Proof.Laws.EncodingRow

open Sys2Proof Sys2Proof.Machine

/-- The word of `i` selects `i`'s row, and the row is one of the table's. -/
def Statement (i : Instr) : Prop := SpelledAs i (rowOf i).pattern (rowOf i).mask ∧ rowOf i ∈ opcodeTable

/-! Masking a packed word keeps the fixed fields and clears the others. -/

theorem lt16_cases {k : Nat} (h : k < 16) : k = 0 ∨ k = 1 ∨ k = 2 ∨ k = 3 ∨ k = 4 ∨ k = 5 ∨ k = 6 ∨ k = 7 ∨ k = 8 ∨
    k = 9 ∨ k = 10 ∨ k = 11 ∨ k = 12 ∨ k = 13 ∨ k = 14 ∨ k = 15 := by omega

theorem packNNN_masked (op : BitVec 4) (nnn : Addr12) : packNNN op nnn &&& 0xF000#16 = packNNN op 0#12 := by
  apply BitVec.eq_of_getLsbD_eq
  intro k hk
  simp only [BitVec.getLsbD_and, bit_packNNN]
  rcases lt16_cases hk with rfl | rfl | rfl | rfl | rfl | rfl | rfl | rfl | rfl | rfl | rfl | rfl | rfl | rfl | rfl | rfl <;>
    simp

theorem packXKK_masked_op (op : BitVec 4) (x : RegIdx) (kk : Byte) :
    packXKK op x kk &&& 0xF000#16 = packXKK op 0 0#8 := by
  apply BitVec.eq_of_getLsbD_eq
  intro k hk
  simp only [BitVec.getLsbD_and, bit_packXKK]
  rcases lt16_cases hk with rfl | rfl | rfl | rfl | rfl | rfl | rfl | rfl | rfl | rfl | rfl | rfl | rfl | rfl | rfl | rfl <;>
    simp

theorem packXKK_masked_sub (op : BitVec 4) (x : RegIdx) (kk : Byte) :
    packXKK op x kk &&& 0xF0FF#16 = packXKK op 0 kk := by
  apply BitVec.eq_of_getLsbD_eq
  intro k hk
  simp only [BitVec.getLsbD_and, bit_packXKK]
  rcases lt16_cases hk with rfl | rfl | rfl | rfl | rfl | rfl | rfl | rfl | rfl | rfl | rfl | rfl | rfl | rfl | rfl | rfl <;>
    simp

theorem packXYN_masked_op (op : BitVec 4) (x y : RegIdx) (n : BitVec 4) :
    packXYN op x y n &&& 0xF000#16 = packXYN op 0 0 0#4 := by
  apply BitVec.eq_of_getLsbD_eq
  intro k hk
  simp only [BitVec.getLsbD_and, bit_packXYN]
  rcases lt16_cases hk with rfl | rfl | rfl | rfl | rfl | rfl | rfl | rfl | rfl | rfl | rfl | rfl | rfl | rfl | rfl | rfl <;>
    simp

theorem packXYN_masked_sub (op : BitVec 4) (x y : RegIdx) (n : BitVec 4) :
    packXYN op x y n &&& 0xF00F#16 = packXYN op 0 0 n := by
  apply BitVec.eq_of_getLsbD_eq
  intro k hk
  simp only [BitVec.getLsbD_and, bit_packXYN]
  rcases lt16_cases hk with rfl | rfl | rfl | rfl | rfl | rfl | rfl | rfl | rfl | rfl | rfl | rfl | rfl | rfl | rfl | rfl <;>
    simp

/-- Every instruction's row is the row of one of the listed instructions. -/
theorem rowOf_mem (i : Instr) : rowOf i ∈ opcodeTable := by
  cases i <;> simp [opcodeTable, oneOfEachRow, rowOf]

/-! The constructors. -/

theorem cls : Statement .cls := ⟨rfl, rowOf_mem _⟩

theorem ret : Statement .ret := ⟨rfl, rowOf_mem _⟩

theorem jp (nnn : Addr12) : Statement (.jp nnn) :=
  ⟨(packNNN_masked _ _).trans rfl, rowOf_mem _⟩

theorem call (nnn : Addr12) : Statement (.call nnn) :=
  ⟨(packNNN_masked _ _).trans rfl, rowOf_mem _⟩

theorem seImm (x : RegIdx) (kk : Byte) : Statement (.seImm x kk) :=
  ⟨(packXKK_masked_op _ _ _).trans rfl, rowOf_mem _⟩

theorem sneImm (x : RegIdx) (kk : Byte) : Statement (.sneImm x kk) :=
  ⟨(packXKK_masked_op _ _ _).trans rfl, rowOf_mem _⟩

theorem seReg (x y : RegIdx) : Statement (.seReg x y) :=
  ⟨(packXYN_masked_sub _ _ _ _).trans rfl, rowOf_mem _⟩

theorem ldImm (x : RegIdx) (kk : Byte) : Statement (.ldImm x kk) :=
  ⟨(packXKK_masked_op _ _ _).trans rfl, rowOf_mem _⟩

theorem addImm (x : RegIdx) (kk : Byte) : Statement (.addImm x kk) :=
  ⟨(packXKK_masked_op _ _ _).trans rfl, rowOf_mem _⟩

theorem ldReg (x y : RegIdx) : Statement (.ldReg x y) :=
  ⟨(packXYN_masked_sub _ _ _ _).trans rfl, rowOf_mem _⟩

theorem orReg (x y : RegIdx) : Statement (.orReg x y) :=
  ⟨(packXYN_masked_sub _ _ _ _).trans rfl, rowOf_mem _⟩

theorem andReg (x y : RegIdx) : Statement (.andReg x y) :=
  ⟨(packXYN_masked_sub _ _ _ _).trans rfl, rowOf_mem _⟩

theorem xorReg (x y : RegIdx) : Statement (.xorReg x y) :=
  ⟨(packXYN_masked_sub _ _ _ _).trans rfl, rowOf_mem _⟩

theorem addReg (x y : RegIdx) : Statement (.addReg x y) :=
  ⟨(packXYN_masked_sub _ _ _ _).trans rfl, rowOf_mem _⟩

theorem subReg (x y : RegIdx) : Statement (.subReg x y) :=
  ⟨(packXYN_masked_sub _ _ _ _).trans rfl, rowOf_mem _⟩

theorem shr (x y : RegIdx) : Statement (.shr x y) :=
  ⟨(packXYN_masked_sub _ _ _ _).trans rfl, rowOf_mem _⟩

theorem subnReg (x y : RegIdx) : Statement (.subnReg x y) :=
  ⟨(packXYN_masked_sub _ _ _ _).trans rfl, rowOf_mem _⟩

theorem shl (x y : RegIdx) : Statement (.shl x y) :=
  ⟨(packXYN_masked_sub _ _ _ _).trans rfl, rowOf_mem _⟩

theorem sneReg (x y : RegIdx) : Statement (.sneReg x y) :=
  ⟨(packXYN_masked_sub _ _ _ _).trans rfl, rowOf_mem _⟩

theorem ldI (nnn : Addr12) : Statement (.ldI nnn) :=
  ⟨(packNNN_masked _ _).trans rfl, rowOf_mem _⟩

theorem jpV0 (nnn : Addr12) : Statement (.jpV0 nnn) :=
  ⟨(packNNN_masked _ _).trans rfl, rowOf_mem _⟩

theorem rnd (x : RegIdx) (kk : Byte) : Statement (.rnd x kk) :=
  ⟨(packXKK_masked_op _ _ _).trans rfl, rowOf_mem _⟩

theorem drw (x y : RegIdx) (n : Fin 16) : Statement (.drw x y n) :=
  ⟨(packXYN_masked_op _ _ _ _).trans rfl, rowOf_mem _⟩

theorem skp (x : RegIdx) : Statement (.skp x) :=
  ⟨(packXKK_masked_sub _ _ _).trans rfl, rowOf_mem _⟩

theorem sknp (x : RegIdx) : Statement (.sknp x) :=
  ⟨(packXKK_masked_sub _ _ _).trans rfl, rowOf_mem _⟩

theorem ldVxDT (x : RegIdx) : Statement (.ldVxDT x) :=
  ⟨(packXKK_masked_sub _ _ _).trans rfl, rowOf_mem _⟩

theorem ldVxK (x : RegIdx) : Statement (.ldVxK x) :=
  ⟨(packXKK_masked_sub _ _ _).trans rfl, rowOf_mem _⟩

theorem ldDTVx (x : RegIdx) : Statement (.ldDTVx x) :=
  ⟨(packXKK_masked_sub _ _ _).trans rfl, rowOf_mem _⟩

theorem ldSTVx (x : RegIdx) : Statement (.ldSTVx x) :=
  ⟨(packXKK_masked_sub _ _ _).trans rfl, rowOf_mem _⟩

theorem addI (x : RegIdx) : Statement (.addI x) :=
  ⟨(packXKK_masked_sub _ _ _).trans rfl, rowOf_mem _⟩

theorem ldF (x : RegIdx) : Statement (.ldF x) :=
  ⟨(packXKK_masked_sub _ _ _).trans rfl, rowOf_mem _⟩

theorem ldB (x : RegIdx) : Statement (.ldB x) :=
  ⟨(packXKK_masked_sub _ _ _).trans rfl, rowOf_mem _⟩

theorem stRegs (x : RegIdx) : Statement (.stRegs x) :=
  ⟨(packXKK_masked_sub _ _ _).trans rfl, rowOf_mem _⟩

theorem ldRegs (x : RegIdx) : Statement (.ldRegs x) :=
  ⟨(packXKK_masked_sub _ _ _).trans rfl, rowOf_mem _⟩

end Sys2Proof.Laws.EncodingRow
end

