-- ==== Sys2Proof/Tests/Slice0.lean ====
section
/-! SUPPORT. Tests. Every expected result is the spec's: the vectors of 95_test_vectors.md by their names (T, A, M, W, K, E),
the words of 30_encoding.md R97. Then, for every obligation with hypotheses, a state that meets them. -/

namespace Sys2Proof.Tests

open Sys2Proof Sys2Proof.Machine

set_option maxRecDepth 20000

/-! Well-formedness: an ill-formed term for each check. -/

/-- 00_scope.md R6: a finite depth is a positive number. -/
theorem test_wf_rejects_depth_zero : Config.wf ⟨1, some 0, defaultFont, 440⟩ = false := by decide

theorem test_wf_accepts_depth_one : Config.wf ⟨1, some 1, defaultFont, 440⟩ = true := by decide

/-- 95_test_vectors.md E8: 3585 bytes do not fit, 3584 do. -/
theorem test_image_too_large : imageFits (List.replicate 3585 0xAA#8) = false := by simp [imageFits]

theorem test_image_largest : imageFits (List.replicate 3584 0xAA#8) = true := by simp [imageFits]

/-! Decoding: the word of every constructor, written out from the match column and the fields of 30_encoding.md R92, R97. -/

theorem test_decode_control :
    decodeWord 0b0000_0000_1110_1110#16 = .ok .ret ∧
    decodeWord 0b0001_1010_1011_1100#16 = .ok (.jp 0xABC#12) ∧
    decodeWord 0b0010_0011_0100_0101#16 = .ok (.call 0x345#12) ∧
    decodeWord 0b1011_1111_1110_1101#16 = .ok (.jpV0 0xFED#12) ∧
    decodeWord 0b0011_1010_0100_0010#16 = .ok (.seImm 10 0x42#8) ∧
    decodeWord 0b0100_1011_0001_0111#16 = .ok (.sneImm 11 0x17#8) ∧
    decodeWord 0b0101_0001_1110_0000#16 = .ok (.seReg 1 14) ∧
    decodeWord 0b1001_0010_1101_0000#16 = .ok (.sneReg 2 13) := by decide

theorem test_decode_load_alu :
    decodeWord 0b0110_1010_0010_1111#16 = .ok (.ldImm 10 0x2F#8) ∧
    decodeWord 0b0111_0000_1111_1111#16 = .ok (.addImm 0 0xFF#8) ∧
    decodeWord 0b1000_0001_0010_0000#16 = .ok (.ldReg 1 2) ∧
    decodeWord 0b1000_0011_0100_0001#16 = .ok (.orReg 3 4) ∧
    decodeWord 0b1000_0101_0110_0010#16 = .ok (.andReg 5 6) ∧
    decodeWord 0b1000_0111_1000_0011#16 = .ok (.xorReg 7 8) ∧
    decodeWord 0b1000_1001_1010_0100#16 = .ok (.addReg 9 10) ∧
    decodeWord 0b1000_1011_1100_0101#16 = .ok (.subReg 11 12) ∧
    decodeWord 0b1000_1101_1110_0110#16 = .ok (.shr 13 14) ∧
    decodeWord 0b1000_1111_0000_0111#16 = .ok (.subnReg 15 0) ∧
    decodeWord 0b1000_0001_0010_1110#16 = .ok (.shl 1 2) ∧
    decodeWord 0b1100_0011_0000_1111#16 = .ok (.rnd 3 0x0F#8) := by decide

theorem test_decode_index_memory :
    decodeWord 0b1010_0001_0010_0011#16 = .ok (.ldI 0x123#12) ∧
    decodeWord 0b1111_0010_0001_1110#16 = .ok (.addI 2) ∧
    decodeWord 0b1111_0001_0010_1001#16 = .ok (.ldF 1) ∧
    decodeWord 0b1111_1101_0011_0011#16 = .ok (.ldB 13) ∧
    decodeWord 0b1111_0010_0101_0101#16 = .ok (.stRegs 2) ∧
    decodeWord 0b1111_1111_0110_0101#16 = .ok (.ldRegs 15) := by decide

theorem test_decode_display :
    decodeWord 0b0000_0000_1110_0000#16 = .ok .cls ∧
    decodeWord 0b1101_0101_0110_0111#16 = .ok (.drw 5 6 7) := by decide

theorem test_decode_keypad_timers :
    decodeWord 0b1110_0001_1001_1110#16 = .ok (.skp 1) ∧
    decodeWord 0b1110_0010_1010_0001#16 = .ok (.sknp 2) ∧
    decodeWord 0b1111_0011_0000_0111#16 = .ok (.ldVxDT 3) ∧
    decodeWord 0b1111_0011_0000_1010#16 = .ok (.ldVxK 3) ∧
    decodeWord 0b1111_0010_0001_0101#16 = .ok (.ldDTVx 2) ∧
    decodeWord 0b1111_0100_0001_1000#16 = .ok (.ldSTVx 4) := by decide

/-- 30_encoding.md R98: words no row spells. -/
theorem test_decode_rejects_by_name :
    decodeWord 0x0000#16 = .error (.unknownOpcode 0x0000#16) ∧
    decodeWord 0x00E1#16 = .error (.unknownOpcode 0x00E1#16) ∧
    decodeWord 0x0FFF#16 = .error (.unknownOpcode 0x0FFF#16) ∧
    decodeWord 0x5121#16 = .error (.unknownOpcode 0x5121#16) ∧
    decodeWord 0x8128#16 = .error (.unknownOpcode 0x8128#16) ∧
    decodeWord 0x812F#16 = .error (.unknownOpcode 0x812F#16) ∧
    decodeWord 0x912F#16 = .error (.unknownOpcode 0x912F#16) ∧
    decodeWord 0xE19F#16 = .error (.unknownOpcode 0xE19F#16) ∧
    decodeWord 0xF300#16 = .error (.unknownOpcode 0xF300#16) ∧
    decodeWord 0xF075#16 = .error (.unknownOpcode 0xF075#16) := by decide

/-- 30_encoding.md R90: the byte at the lower address is bits 15..8, and one byte is no word. -/
theorem test_decode_bytes :
    decodeBytes [0x6A#8, 0x2F#8, 0x99#8] = .ok (.ldImm 10 0x2F#8, [0x99#8]) ∧ decodeBytes [0x6A#8] = .error .truncated ∧
    decodeTableWord 16 0x6A2F = some (.ldImm 10 0x2F#8) := by decide

/-! A small state: reset, a blank display, the tone off, one scripted tick. -/

/-- Nothing pressed, no event, the byte 0xA7 from the random source (vector A44). -/
def quiet : TickInput := ⟨[], Vector.replicate 16 false, false, 0xA7#8⟩

/-- Key 5 held. -/
def holding5 : TickInput := { quiet with keysDown := (Vector.replicate 16 false).set 5 true }

/-- Reset with everything the spec leaves open given a value. -/
def base : State :=
  { State.reset with
    config := ⟨1, none, defaultFont, 440⟩, fb := Vector.replicate 32 0#64, tone := false, inputs := [quiet] }

/-- Registers given in pairs. -/
def withRegs (rs : List (RegIdx × Byte)) (s : State) : State := rs.foldl (fun u p => writeReg p.1 p.2 u) s

/-- Bytes placed from `a` up. -/
def withBytes (a : Nat) (bs : List Byte) (s : State) : State := setMem (placeBytes s.config.font a bs s.mem) s

/-- Pixels switched on. -/
def withPixels (ps : List (Nat × Nat)) (s : State) : State := { (setPixels ps s).2 with requests := [] }

/-- One tick of the word placed at `pc`. -/
def tickOf (w : Nat) (s : State) : Host.Outcome State Fault Refusal := step (s.withFetchWord 16 w)

/-- The step answers a next state with the property. -/
def after (o : Host.Outcome State Fault Refusal) (p : State → Bool) : Bool :=
  match o with
  | .next t => p t
  | _ => false

/-- The step answers the fault. -/
def faults (o : Host.Outcome State Fault Refusal) (f : Fault) : Bool :=
  match o with
  | .fault g => g == f
  | _ => false

/-! One tick of each instruction. -/

/-- T2 (most recently pushed first) -/
theorem test_ret :
    after (tickOf 0x00EE { base with stack := [0x0300#16, 0x0202#16] }) (fun t => t.pc == 0x300#16 && t.stack == [0x0202#16]) = true := by decide

/-- T3 -/
theorem test_ret_underflow : faults (tickOf 0x00EE base) .stackUnderflow = true := by decide

/-- T5 -/
theorem test_jp :
    after (tickOf 0x1ABC base) (fun t => t.pc == 0xABC#16) = true := by decide

/-- T6 -/
theorem test_jp_self :
    after (tickOf 0x1200 base) (fun t => t.pc == 0x200#16) = true := by decide

/-- T10 -/
theorem test_call :
    after (tickOf 0x2200 { base with stack := [0x0400#16] }) (fun t => t.pc == 0x200#16 && t.stack == [0x0202#16, 0x0400#16]) = true := by decide

/-- T11 -/
theorem test_call_overflow : faults (tickOf 0x2300 { base with stack := [0x0500#16, 0x0400#16], config := ⟨1, some 2, defaultFont, 440⟩ }) .stackOverflow = true := by decide

/-- T14 -/
theorem test_jpV0 :
    after (tickOf 0xBFFF (withRegs [(0, 0xFF)] base)) (fun t => t.pc == 0x10FE#16) = true := by decide

/-- T17 -/
theorem test_seImm_skips :
    after (tickOf 0x3A42 (withRegs [(10, 0x42)] base)) (fun t => t.pc == 0x204#16) = true := by decide

/-- T18 -/
theorem test_seImm_stays :
    after (tickOf 0x3A42 (withRegs [(10, 0x43)] base)) (fun t => t.pc == 0x202#16) = true := by decide

/-- T20 -/
theorem test_sneImm_stays :
    after (tickOf 0x4A42 (withRegs [(10, 0x42)] base)) (fun t => t.pc == 0x202#16) = true := by decide

/-- T21 -/
theorem test_sneImm_skips :
    after (tickOf 0x4A42 (withRegs [(10, 0x43)] base)) (fun t => t.pc == 0x204#16) = true := by decide

/-- T22 -/
theorem test_seReg_skips :
    after (tickOf 0x5120 (withRegs [(1, 0x07), (2, 0x07)] base)) (fun t => t.pc == 0x204#16) = true := by decide

/-- T23 -/
theorem test_seReg_stays :
    after (tickOf 0x5120 (withRegs [(1, 0x07), (2, 0x08)] base)) (fun t => t.pc == 0x202#16) = true := by decide

/-- T26 -/
theorem test_sneReg_skips :
    after (tickOf 0x9120 (withRegs [(1, 0x07), (2, 0x08)] base)) (fun t => t.pc == 0x204#16) = true := by decide

/-- T27 -/
theorem test_sneReg_stays :
    after (tickOf 0x9120 (withRegs [(1, 0x07), (2, 0x07)] base)) (fun t => t.pc == 0x202#16) = true := by decide

/-- A1 -/
theorem test_ldImm :
    after (tickOf 0x6A2F base) (fun t => readReg 10 t == 0x2F#8 && t.pc == 0x202#16) = true := by decide

/-- A3 -/
theorem test_addImm :
    after (tickOf 0x7001 (withRegs [(0, 0xFF)] base)) (fun t => readReg 0 t == 0x00#8 && readReg 15 t == 0x00#8) = true := by decide

/-- A6 -/
theorem test_ldReg :
    after (tickOf 0x8120 (withRegs [(1, 0x11), (2, 0x5A)] base)) (fun t => readReg 1 t == 0x5A#8 && readReg 2 t == 0x5A#8) = true := by decide

/-- A7 -/
theorem test_orReg :
    after (tickOf 0x8121 (withRegs [(1, 0xF0), (2, 0x0C), (15, 0x55)] base)) (fun t => readReg 1 t == 0xFC#8 && readReg 15 t == 0x55#8) = true := by decide

/-- A8 -/
theorem test_andReg :
    after (tickOf 0x8122 (withRegs [(1, 0xF0), (2, 0x3C), (15, 0x55)] base)) (fun t => readReg 1 t == 0x30#8 && readReg 15 t == 0x55#8) = true := by decide

/-- A9 -/
theorem test_xorReg :
    after (tickOf 0x8123 (withRegs [(1, 0xF0), (2, 0x3C), (15, 0x55)] base)) (fun t => readReg 1 t == 0xCC#8 && readReg 15 t == 0x55#8) = true := by decide

/-- A11 -/
theorem test_addReg :
    after (tickOf 0x8014 (withRegs [(0, 0xFF), (1, 0x01)] base)) (fun t => readReg 0 t == 0x00#8 && readReg 15 t == 0x01#8) = true := by decide

/-- A16 -/
theorem test_addReg_vf :
    after (tickOf 0x8F14 (withRegs [(15, 0xFF), (1, 0x02)] base)) (fun t => readReg 15 t == 0x01#8) = true := by decide

/-- A20 -/
theorem test_subReg :
    after (tickOf 0x8015 (withRegs [(0, 0x03), (1, 0x05), (15, 0x01)] base)) (fun t => readReg 0 t == 0xFE#8 && readReg 15 t == 0x00#8) = true := by decide

/-- A24 -/
theorem test_subReg_vf :
    after (tickOf 0x8F15 (withRegs [(15, 0x05), (1, 0x03)] base)) (fun t => readReg 15 t == 0xFE#8) = true := by decide

/-- A31 -/
theorem test_shr :
    after (tickOf 0x8126 (withRegs [(1, 0x04), (2, 0xFF), (15, 0x01)] base)) (fun t => readReg 1 t == 0x02#8 && readReg 2 t == 0xFF#8 && readReg 15 t == 0x00#8) = true := by decide

/-- A32 -/
theorem test_shr_vf :
    after (tickOf 0x8F06 (withRegs [(15, 0x03)] base)) (fun t => readReg 15 t == 0x00#8) = true := by decide

/-- A33 -/
theorem test_subnReg :
    after (tickOf 0x8017 (withRegs [(0, 0x02), (1, 0x0A)] base)) (fun t => readReg 0 t == 0x08#8 && readReg 1 t == 0x0A#8 && readReg 15 t == 0x01#8) = true := by decide

/-- A37 -/
theorem test_subnReg_vf :
    after (tickOf 0x80F7 (withRegs [(0, 0x05), (15, 0x09)] base)) (fun t => readReg 0 t == 0xFC#8 && readReg 15 t == 0x01#8) = true := by decide

/-- A41 -/
theorem test_shl :
    after (tickOf 0x812E (withRegs [(1, 0x01), (2, 0xFF)] base)) (fun t => readReg 1 t == 0x02#8 && readReg 2 t == 0xFF#8 && readReg 15 t == 0x00#8) = true := by decide

/-- A42 -/
theorem test_shl_vf :
    after (tickOf 0x8F0E (withRegs [(15, 0x80)] base)) (fun t => readReg 15 t == 0x02#8) = true := by decide

/-- A44 -/
theorem test_rnd :
    after (tickOf 0xC30F base) (fun t => readReg 3 t == 0x07#8 && t.requests == [.randomByte]) = true := by decide

/-- M2 -/
theorem test_ldI :
    after (tickOf 0xAFFF { base with i := 0x1234#16 }) (fun t => t.i == 0x0FFF#16) = true := by decide

/-- M4 -/
theorem test_addI_no_flag :
    after (tickOf 0xF11E { (withRegs [(1, 0x01), (15, 0x55)] base) with i := 0x0FFF#16 }) (fun t => t.i == 0x1000#16 && readReg 15 t == 0x55#8) = true := by decide

/-- M5 -/
theorem test_addI_wraps :
    after (tickOf 0xF11E { (withRegs [(1, 0x02)] base) with i := 0xFFFF#16 }) (fun t => t.i == 0x0001#16) = true := by decide

/-- M11 -/
theorem test_ldF :
    after (tickOf 0xF129 (withRegs [(1, 0xFF)] base)) (fun t => t.i == 0x04FB#16) = true := by decide

/-- M12 -/
theorem test_ldB :
    after (tickOf 0xF033 { (withRegs [(0, 0x9D)] base) with i := 0x300#16 }) (fun t => byteAt 0x300 t == 0x01#8 && byteAt 0x301 t == 0x05#8 && byteAt 0x302 t == 0x07#8 && byteAt 0x303 t == 0x00#8 && t.i == 0x300#16) = true := by decide

/-- M18 -/
theorem test_ldB_out_of_range : faults (tickOf 0xF033 { base with i := 0xFFE#16 }) (.outOfRange 0x1000) = true := by decide

/-- M21 -/
theorem test_stRegs :
    after (tickOf 0xF255 { (withRegs [(0, 0x01), (1, 0x02), (2, 0x03), (3, 0x04)] base) with i := 0x300#16 }) (fun t => byteAt 0x300 t == 0x01#8 && byteAt 0x301 t == 0x02#8 && byteAt 0x302 t == 0x03#8 && byteAt 0x303 t == 0x00#8 && t.i == 0x300#16) = true := by decide

/-- M24 -/
theorem test_stRegs_over_font :
    after (tickOf 0xF155 (withRegs [(0, 0x12), (1, 0x34)] base)) (fun t => byteAt 0x000 t == 0x12#8 && byteAt 0x001 t == 0x34#8 && byteAt 0x002 t == 0x90#8) = true := by decide

/-- M25 -/
theorem test_ldRegs :
    after (tickOf 0xF265 { withBytes 0x300 [0x11, 0x22, 0x33, 0x44] (withRegs [(3, 0x77)] base) with i := 0x300#16 }) (fun t => readReg 0 t == 0x11#8 && readReg 1 t == 0x22#8 && readReg 2 t == 0x33#8 && readReg 3 t == 0x77#8 && t.i == 0x300#16) = true := by decide

/-- M27 -/
theorem test_ldRegs_out_of_range : faults (tickOf 0xFF65 { base with i := 0xFF1#16 }) (.outOfRange 0x1000) = true := by decide

/-- W1 -/
theorem test_cls :
    after (tickOf 0x00E0 (withPixels [(0, 0), (63, 31)] base)) (fun t => t.requests == [.clear] && !pixelAt 0 0 t && !pixelAt 63 31 t && t.pc == 0x202#16) = true := by decide

/-- W2 -/
theorem test_drw_wraps :
    after (tickOf 0xD012 { withBytes 0x220 [0xF0, 0x90] (withRegs [(0, 0x3E), (1, 0x1F)] base) with i := 0x220#16 }) (fun t => readReg 15 t == 0x00#8 && t.requests == [.setPixel 62 31, .setPixel 63 31, .setPixel 64 31, .setPixel 65 31, .setPixel 62 32, .setPixel 65 32] && pixelAt 1 0 t && pixelAt 62 0 t && !pixelAt 0 0 t) = true := by decide

/-- W10 -/
theorem test_drw_vf_row_collision :
    after (tickOf 0xD1F1 { withBytes 0x220 [0x80] (withPixels [(3, 2)] (withRegs [(15, 0x02), (1, 0x03)] base)) with i := 0x220#16 }) (fun t => readReg 15 t == 0x01#8 && t.requests == [.setPixel 3 2] && !pixelAt 3 2 t) = true := by decide

/-- K1 -/
theorem test_skp_held :
    after (tickOf 0xE19E { (withRegs [(1, 0x05)] base) with inputs := [holding5] }) (fun t => t.pc == 0x204#16 && t.requests == [.isPressed 5#8]) = true := by decide

/-- K2 (another key held) -/
theorem test_skp_not_held :
    after (tickOf 0xE19E { (withRegs [(1, 0x04)] base) with inputs := [holding5] }) (fun t => t.pc == 0x202#16) = true := by decide

/-- K3 -/
theorem test_sknp_held :
    after (tickOf 0xE1A1 { (withRegs [(1, 0x05)] base) with inputs := [holding5] }) (fun t => t.pc == 0x202#16) = true := by decide

/-- K4 -/
theorem test_sknp_not_held :
    after (tickOf 0xE1A1 (withRegs [(1, 0x05)] base)) (fun t => t.pc == 0x204#16) = true := by decide

/-- K6 -/
theorem test_ldVxK :
    after (tickOf 0xF30A (withRegs [(3, 0x99)] base)) (fun t => readReg 3 t == 0x99#8 && t.pc == 0x202#16 && t.paused && t.kwx == 3) = true := by decide

/-- K7 -/
theorem test_ldVxDT :
    after (tickOf 0xF307 { base with dt := 4#8 }) (fun t => readReg 3 t == 0x04#8 && t.dt == 3#8) = true := by decide

/-- K9 -/
theorem test_ldDTVx :
    after (tickOf 0xF215 (withRegs [(2, 0x03)] base)) (fun t => t.dt == 2#8) = true := by decide

/-- K10 -/
theorem test_ldDTVx_stops :
    after (tickOf 0xF215 { base with dt := 9#8 }) (fun t => t.dt == 0#8) = true := by decide

/-- K13 -/
theorem test_ldSTVx :
    after (tickOf 0xF418 (withRegs [(4, 0x1E)] base)) (fun t => t.st == 0x1D#8) = true := by decide

/-! The engine. -/

/-- T25 -/
theorem test_unknown_opcode : faults (tickOf 0x5121 base) (.unknownOpcode 0x5121#16) = true := by decide

/-- E6: the last word of memory is fetched; one byte further it is not. -/
theorem test_fetch_edges :
    faults (step { base with pc := 0xFFE#16 }) (.unknownOpcode 0#16) = true ∧
    faults (step { base with pc := 0xFFF#16 }) (.outOfRange 0x1000) = true ∧
    faults (step { base with pc := 0x10FE#16 }) (.outOfRange 0x10FE) = true := by decide

/-- 70_reset_and_hazards.md R303: a core with no program loaded faults at its first tick. -/
theorem test_reset_without_program : faults (step State.reset) (.unknownOpcode 0#16) = true := by decide

/-- E2, tick 7: two events come before the tick; the first one ends the wait and its tick runs the next instruction. -/
theorem test_key_press_resumes :
    after (tickOf 0x6000 base) (fun _ => true) = true ∧
    after (step { (base.withFetchWord 16 0x7401) with
        paused := true, kwx := 4, inputs := [{ quiet with keyPresses := [0xB, 0x2] }] })
      (fun t => readReg 4 t == 0x0C#8 && t.pc == 0x202#16 && !t.paused) = true := by decide

/-- E2, tick 4: a waiting core steps its timers. -/
theorem test_waiting_steps_timers :
    after (step { base with paused := true, dt := 3#8 }) (fun t => t.dt == 2#8 && t.pc == 0x200#16 && t.paused) = true := by
  decide

/-- E7: a halted core reports the same fault at every frame. -/
theorem test_halted_frame :
    runFrame base { base with fault := some .stackUnderflow } =
      .reported .stackUnderflow { base with fault := some .stackUnderflow } := rfl

/-- E9: the byte at 0 right after reset is the font's first. -/
theorem test_reset_font_byte : after (tickOf 0xF065 State.reset) (fun t => readReg 0 t == 0xF0#8) = true := by decide

/-! Witnesses: for each obligation with hypotheses, states and operands that meet them, at the edges of each range. -/

/-- A core that waits for register 4. -/
def waiting : State := { base with paused := true, kwx := 4, dt := 3#8 }

/-- A core that waits while key 0xB goes down. -/
def waitingPressed : State := { waiting with inputs := [{ quiet with keyPresses := [0xB] }] }

/-- A core that halted. -/
def halted : State := { base with fault := some .stackUnderflow }

/-- A core with the word `w` at `pc`. -/
def holding (w : Nat) : State := base.withFetchWord 16 w

theorem test_witness_EncodeOfDecodeIsTheWord : decodeWord 0x00E0#16 = .ok .cls := by decide

theorem test_witness_AtMostOneRowSelectsAWord :
    rowOf .cls ∈ opcodeTable ∧ (rowOf .cls).selects 0x00E0#16 ∧ (rowOf (.shr 1 2)).selects 0x8126#16 :=
  ⟨by decide, rfl, rfl⟩

theorem test_witness_ResetLeavesTheStatedValues :
    byteAt 79 State.reset = 0x80#8 ∧ byteAt 80 State.reset = 0#8 ∧ byteAt 4096 State.reset = 0#8 := by decide

theorem test_witness_HostResetTouchesTheCoreAlone :
    byteAt 79 (hostReset halted) = 0x80#8 ∧ byteAt 80 (hostReset waiting) = 0#8 := by decide

/-- The two cells the placed word occupies are in order and neither is a zero. -/
theorem base_holding_inv : Inv (holding 0x1ABC) where
  mem_wf := by decide
  pc_le := by decide
  stack_range := by simp [holding, State.withFetchWord, placeFetchWord, base, State.reset]
  stack_depth := by simp [holding, State.withFetchWord, placeFetchWord, base]

theorem test_witness_EveryStepKeepsInv : Inv (holding 0x1ABC) ∧ ∃ t, step (holding 0x1ABC) = .next t :=
  ⟨base_holding_inv, _, rfl⟩

/-- A running core with a word at the last place a fetch succeeds, an illegal word there, and `pc` one past it. -/
theorem test_witness_StepRunsTheDecodedInstruction :
    Running { (withBytes 0xFFE [0x60, 0x01] base) with pc := 0xFFE#16 } ∧
    Fetches (.ldImm 0 1#8) { (withBytes 0xFFE [0x60, 0x01] base) with pc := 0xFFE#16 } ∧
    Running { base with pc := 0xFFE#16 } ∧
    decodeWord (wordOfBytes (byteAt 0xFFE base) (byteAt 0xFFF base)) = .error (.unknownOpcode 0#16) ∧
    Running { base with pc := 0xFFF#16 } ∧ memSize ≤ (0xFFF#16).toNat + 1 := by
  unfold Running Fetches
  decide

theorem test_witness_FetchReadsTheHigherByteFirst :
    ({ base with pc := 0xFFE#16 } : State).pc.toNat ≤ 0xFFE ∧ ({ base with pc := 0xFFF#16 } : State).pc.toNat = 4095 ∧
    4096 ≤ ({ base with pc := 0x1000#16 } : State).pc.toNat := by decide

theorem test_witness_MemoryReadAfterWrite :
    memRead 4095 base = .ok 0#8 ∧ memRead 4096 base = .error (.outOfRange 4096) ∧
    (memWrite 4096 1#8 base = .error (.outOfRange 4096)) := by
  refine ⟨by decide, by decide, rfl⟩

theorem test_witness_WaitingCoreStepsItsTimersAlone : Waiting waiting ∧ (currentInput waiting).keyPresses = [] := by
  unfold Waiting
  decide

theorem test_witness_KeyPressEndsTheWait : Waiting waiting ∧ ¬ Waiting base ∧ ¬ Waiting halted := by
  unfold Waiting
  decide

theorem test_witness_KeyPressResumesAtPc :
    Waiting (withBytes 0x200 [0x74, 0x01] waitingPressed) ∧
    (currentInput (withBytes 0x200 [0x74, 0x01] waitingPressed)).keyPresses = [0xB] ∧
    Fetches (.addImm 4 1#8) (withBytes 0x200 [0x74, 0x01] waitingPressed) := by
  unfold Waiting Fetches
  decide

theorem test_witness_HaltedCoreDoesNothingUntilReset : halted.fault = some .stackUnderflow := rfl

/-- A tick that writes `DT`, one that writes `ST`, and one that writes neither. -/
theorem test_witness_TimersRunDownOnceInEveryTick :
    (Running (holding 0xF215) ∧ Fetches (.ldDTVx 2) (holding 0xF215) ∧ ∃ t, step (holding 0xF215) = .next t) ∧
    (Running (holding 0xF418) ∧ Fetches (.ldSTVx 4) (holding 0xF418) ∧ ∃ t, step (holding 0xF418) = .next t) ∧
    (Running (holding 0x6000) ∧ Fetches (.ldImm 0 0) (holding 0x6000) ∧ ∃ t, step (holding 0x6000) = .next t) := by
  unfold Running Fetches
  exact ⟨⟨by decide, by decide, _, rfl⟩, ⟨by decide, by decide, _, rfl⟩, ⟨by decide, by decide, _, rfl⟩⟩

theorem test_witness_ReturnPopsTheStackIntoPc :
    base.stack = [] ∧ ({ base with stack := [0x206#16] } : State).stack = 0x206#16 :: [] := ⟨rfl, rfl⟩

/-- The targets 0xFFF and, for the indexed jump, 0x10FE. -/
theorem test_witness_JumpsSetPc :
    (setPc (zext16 0xFFF#12) base).pc.toNat = 0xFFF ∧ 0xFFF ≤ (setPc (jumpSum 0xFFF#12 0#8) base).pc.toNat ∧
    (setPc (jumpSum 0xFFF#12 0xFF#8) base).pc.toNat = 0x10FE := by decide

theorem test_witness_JumpToItselfChangesTheTimersAlone :
    Running (holding 0x1200) ∧ Fetches (.jp 0x200#12) (holding 0x1200) ∧
    (holding 0x1200).pc.toNat = (0x200#12 : Addr12).toNat := by
  unfold Running Fetches
  decide

/-- A depth of 2: one entry leaves room, two do not; and no limit. -/
def depth2 (k : List Word) : State := { base with stack := k, config := ⟨1, some 2, defaultFont, 440⟩ }

theorem test_witness_CallPushesTheReturnAddress :
    base.config.stackDepth ≠ some base.stack.length ∧
    (depth2 [0x400#16]).config.stackDepth ≠ some (depth2 [0x400#16]).stack.length ∧
    (depth2 [0x500#16, 0x400#16]).config.stackDepth = some (depth2 [0x500#16, 0x400#16]).stack.length := by decide

theorem test_witness_CallThenReturnResumes :
    ∃ t u : State, exec (.call 0x300#12) base = .next t ∧ u.stack = t.stack :=
  ⟨_, { base with stack := [0x200#16] }, rfl, rfl⟩

/-- Operands on both sides of the flag register. -/
theorem test_witness_flag_operands : (0 : RegIdx) ≠ flagReg ∧ (14 : RegIdx) ≠ flagReg ∧ (15 : RegIdx) = flagReg := by
  decide

/-- The highest `I` that fits three bytes, and the next. -/
theorem test_witness_BcdStoresThreeDigits :
    dataAddr 2 { base with i := 0xFFD#16 } < memSize ∧ memSize ≤ dataAddr 2 { base with i := 0xFFE#16 } := by decide

/-- One register at the last byte, sixteen ending at it, and one byte further. -/
theorem test_witness_RegisterBlock :
    dataAddr (0 : RegIdx).val { base with i := 0xFFF#16 } < memSize ∧
    dataAddr (15 : RegIdx).val { base with i := 0xFF0#16 } < memSize ∧
    memSize ≤ dataAddr (15 : RegIdx).val { base with i := 0xFF1#16 } ∧
    memSize ≤ dataAddr (0 : RegIdx).val { base with i := 0x1000#16 } := by decide

theorem test_witness_StoreIsSeenByTheNextFetch :
    1 ≤ (1 : RegIdx).val ∧ ∃ t u : State, exec (.stRegs 1) { base with i := 0x202#16 } = .next t ∧ u.mem = t.mem ∧
      u.config = t.config ∧ u.pc.toNat = dataAddr 0 { base with i := 0x202#16 } :=
  ⟨by decide, _, setPc 0x202#16 (setMem (storeByte defaultFont 0x203 0#8 (storeByte defaultFont 0x202 0#8 [])) base), rfl,
    rfl, rfl, by decide⟩

/-! The display: one row 0xC0 at 0x220, drawn at (62, 31), where it wraps nowhere, and at (63, 31), where it wraps. -/

/-- `V0` and `V1` hold the coordinates, `I` the sprite, and pixel (63, 31) is on. -/
def drawn (vx vy : Byte) : State :=
  { withBytes 0x220 [0xC0] (withPixels [(63, 31)] (withRegs [(0, vx), (1, vy)] base)) with i := 0x220#16 }

theorem drawn_covers (vx vy : Byte) (c r : Nat) (h : (vx.toNat + 1) % 64 = c ∧ vy.toNat % 32 = r) :
    Covered (drawn vx vy) vx.toNat vy.toNat 1 c r :=
  ⟨0, 1, by decide, by decide, by
    have h0 : byteAt 0x220 (drawn 0 0) = 0xC0#8 := by decide
    have hv : byteAt 0x220 (drawn vx vy) = byteAt 0x220 (drawn 0 0) := rfl
    show (byteAt 0x220 (drawn vx vy)).getLsbD 6 = true
    rw [hv, h0]
    rfl, h.1, h.2⟩

/-- No row at any `I`, rows ending at the last byte, rows running out; a covered pixel that is on, one that is off. -/
theorem test_witness_DrawFlipsExactlyTheCoveredPixels :
    ((0 : Fin 16).val = 0) ∧ dataAddr (15 : Fin 16).val { base with i := 0xFF1#16 } ≤ memSize ∧
    ((2 : Fin 16).val ≠ 0 ∧ memSize < dataAddr (2 : Fin 16).val { base with i := 0xFFF#16 }) ∧
    (Covered (drawn 62 31) 62 31 1 63 31 ∧ pixelAt 63 31 (drawn 62 31) = true) ∧
    (Covered (drawn 63 31) 63 31 1 0 31 ∧ pixelAt 0 31 (drawn 63 31) = false) :=
  ⟨rfl, by decide, by decide, ⟨drawn_covers 62 31 63 31 (by decide), by decide⟩,
    ⟨drawn_covers 63 31 0 31 (by decide), by decide⟩⟩

/-- A sprite with no 1 bit covers no pixel. -/
theorem test_witness_draw_without_collision (c r : Nat) : ¬ Covered { base with i := 0x220#16 } 0 0 1 c r := by
  rintro ⟨row, col, h1, _, h3, _⟩
  have : row = 0 := by omega
  subst this
  have h0 : byteAt 0x220 { base with i := 0x220#16 } = 0#8 := by decide
  rw [show ({ base with i := 0x220#16 } : State).i.toNat + 0 = 0x220 from rfl, h0] at h3
  simp at h3

theorem test_witness_DrawRequestsEachPixelInOrder : ∃ t, exec (.drw 0 1 1) (drawn 62 31) = .next t := ⟨_, rfl⟩

/-- The coordinates (126, 63) agree with (62, 31) modulo 64 and 32. -/
theorem test_witness_DrawWrapsAtTheEdges :
    (∀ a, byteAt a (drawn 126 63) = byteAt a (drawn 62 31)) ∧
    (∀ c r, pixelAt c r (drawn 126 63) = pixelAt c r (drawn 62 31)) ∧ (drawn 126 63).i = (drawn 62 31).i ∧
    (readReg 0 (drawn 126 63)).toNat % 64 = (readReg 0 (drawn 62 31)).toNat % 64 ∧
    (readReg 1 (drawn 126 63)).toNat % 32 = (readReg 1 (drawn 62 31)).toNat % 32 ∧
    (∃ t, exec (.drw 0 1 1) (drawn 62 31) = .next t) ∧ ∃ w, exec (.drw 0 1 1) (drawn 126 63) = .next w :=
  ⟨fun _ => rfl, fun _ _ => rfl, rfl, by decide, by decide, ⟨_, rfl⟩, ⟨_, rfl⟩⟩

theorem test_witness_DrawTwiceRestoresTheDisplay :
    (0 : RegIdx) ≠ flagReg ∧ (1 : RegIdx) ≠ flagReg ∧ (∃ t, exec (.drw 0 1 1) (drawn 63 31) = .next t) ∧
    (∃ c r, Covered (drawn 63 31) 63 31 1 c r ∧ pixelAt c r (drawn 63 31) = false) :=
  ⟨by decide, by decide, ⟨_, rfl⟩, 0, 31, drawn_covers 63 31 0 31 (by decide), by decide⟩

/-- Key codes 15 and 16. -/
theorem test_witness_KeySkips :
    (readReg 0 (withRegs [(0, 15)] base)).toNat < 16 ∧ 16 ≤ (readReg 0 (withRegs [(0, 16)] base)).toNat := by decide

/-- A frame of one tick that completes, and one that faults. -/
theorem test_witness_FrameIsSpeedStepsThenAudioAndPresent :
    ((holding 0x6001).fault = none ∧
      ∃ t : State, Sys2Proof.core.run (holding 0x6001).config.speed (holding 0x6001) = .next t) ∧
    ((holding 0x00EE).fault = none ∧
      ∃ f : Fault, Sys2Proof.core.run (holding 0x00EE).config.speed (holding 0x00EE) = .fault f) :=
  ⟨⟨rfl, _, rfl⟩, ⟨rfl, _, rfl⟩⟩

theorem test_witness_ReportedFaultIsSticky : ∃ t, runFrame base (holding 0x00EE) = .reported .stackUnderflow t :=
  ⟨_, rfl⟩

theorem test_witness_LoadProgramCopiesTheImage :
    (base.frameStarted = false ∧ 0x200 + (List.replicate 3584 0xAA#8).length ≤ 4096) ∧
    4096 < 0x200 + (List.replicate 3585 0xAA#8).length ∧ ({ base with frameStarted := true } : State).frameStarted = true ∧
    Memory.wf base.config.font base.mem := by
  refine ⟨⟨rfl, ?_⟩, ?_, rfl, ?_⟩
  · simp
  · simp
  · decide

/-- Inside a frame, as after any of its ticks. -/
def inFrame : State := { base with midFrame := true }

/-- The first and the last index, one above and one below, and a frame in progress. -/
theorem test_witness_RegisterAccessorsCheckTheIndex :
    base.midFrame = false ∧ (0 : Int) = (0 : RegIdx).val ∧ (15 : Int) = (15 : RegIdx).val ∧
    ((-1 : Int) < 0 ∨ 16 ≤ (-1 : Int)) ∧ ((16 : Int) < 0 ∨ 16 ≤ (16 : Int)) ∧ inFrame.midFrame = true := by decide

/-- The last address, one above and one below, and a frame in progress. -/
theorem test_witness_MemoryAccessorsCheckTheAddress :
    base.midFrame = false ∧ (4095 < 4096 ∧ (4095 : Int) = (4095 : Nat)) ∧ (4096 ≤ 4096 ∧ (4096 : Int) = (4096 : Nat)) ∧
    (-1 : Int) < 0 ∧ inFrame.midFrame = true := by decide

theorem test_witness_TimerAccessorsActBetweenFrames :
    base.midFrame = false ∧ inFrame.midFrame = true ∧ (holding 0x6001).fault = none ∧
    ∃ t, step (holding 0x6001) = .next t := ⟨rfl, rfl, rfl, _, rfl⟩

/-- A draw of two rows, the second outside memory: the first row is 0x80, so one call may have been made. -/
def drawingOff : State := { withBytes 0xFFF [0x80] (holding 0xD012) with i := 0xFFF#16 }

/-- Both extremes of what the faulting draw may have sent: nothing, and the one call. -/
theorem test_witness_FaultingFrameMakesNoAudioAndNoPresentRequest :
    drawingOff.fault = none ∧ (∃ w, runFrame base drawingOff = .reported (.outOfRange 0x1000) w ∧ w.requests = []) ∧
    ∃ w, runFrame { base with requests := [.setPixel 0 0] } drawingOff = .reported (.outOfRange 0x1000) w ∧
      w.requests = [.setPixel 0 0] := ⟨rfl, ⟨_, rfl, by decide⟩, _, rfl, by decide⟩

/-- The idle loop at 0x202 is reached after one tick; a fault before it leaves no result. -/
theorem test_witness_ResultIsReadAtTheFirstArrival :
    (∃ t, resultState 0x202#16 3 (holding 0x6001) = some t ∧ readReg 0 t = 1#8) ∧
    resultState 0x202#16 3 (holding 0x00EE) = none := ⟨⟨_, rfl, by decide⟩, by decide⟩

/-- A store, an address it writes and one it does not. -/
theorem test_witness_EveryInstructionWritesOnlyItsOwnParts :
    (∃ t, exec (.stRegs 2) { base with i := 0x300#16 } = .next t) ∧ Stores (.stRegs 2) { base with i := 0x300#16 } 0x302 ∧
    ¬ Stores (.stRegs 2) { base with i := 0x300#16 } 0x303 := by
  refine ⟨⟨_, rfl⟩, ?_, ?_⟩
  · unfold Stores
    decide
  · unfold Stores
    decide

/-- A fault of each kind an instruction raises, and an instruction that raises none. -/
theorem test_witness_InstructionsFaultExactlyWhereTheRulesSay :
    RaisesFault .ret base .stackUnderflow ∧ RaisesFault (.call 0) (depth2 [0x500#16, 0x400#16]) .stackOverflow ∧
    RaisesFault (.ldB 0) { base with i := 0xFFE#16 } (.outOfRange 4096) ∧
    RaisesFault (.drw 0 0 1) { base with i := 0x2000#16 } (.outOfRange 0x2000) ∧
    ∀ f, ¬ RaisesFault (.ldB 0) { base with i := 0xFFD#16 } f := by
  unfold RaisesFault
  refine ⟨by decide, by decide, by decide, by decide, ?_⟩
  rintro f ⟨h, _⟩
  revert h
  decide

theorem test_witness_StepRaisesOnlyTheCoresFaults : step base = .fault (.unknownOpcode 0#16) := rfl

theorem test_witness_StepKeepsConfigurationAndTone : ∃ t, step (holding 0x6001) = .next t := ⟨_, rfl⟩

/-- One running core whose step is the key wait, one whose step is not. -/
theorem test_witness_OnlyTheKeyWaitPauses :
    (Running (holding 0xF30A) ∧ Fetches (.ldVxK 3) (holding 0xF30A) ∧ ∃ t, step (holding 0xF30A) = .next t) ∧
    (Running (holding 0x6001) ∧ ∃ t, step (holding 0x6001) = .next t) := by
  unfold Running Fetches
  exact ⟨⟨by decide, by decide, _, rfl⟩, ⟨by decide, _, rfl⟩⟩

end Sys2Proof.Tests
end

section
/-! PROOFS. Partial correctness of an outcome: a predicate that holds of the next state, if there is one. -/

namespace Sys2Proof.Machine

/-- Whatever next state the outcome answers satisfies `P`; a fault and a refusal answer none. -/
def WhenNext (P : State → Prop) (o : Result) : Prop := ∀ t, o = .next t → P t

variable {P : State → Prop}

theorem whenNext_next {s : State} (h : P s) : WhenNext P (.next s) := by
  rintro t ⟨⟩
  exact h

theorem whenNext_raise (f : Fault) : WhenNext P (raise f) := by
  rintro t ⟨⟩

theorem whenNext_orRaise {α : Type} {r : Except Fault α} {k : α → Result} (h : ∀ a, r = .ok a → WhenNext P (k a)) :
    WhenNext P (orRaise r k) := by
  cases r with
  | error f => exact whenNext_raise f
  | ok a => exact h a rfl

theorem whenNext_execRet {s : State} (h : ∀ a rest, s.stack = a :: rest → P (setPc a (setStack rest s))) :
    WhenNext P (execRet s) := by
  unfold execRet
  split
  · exact whenNext_raise _
  · exact whenNext_next (h _ _ ‹_›)

theorem stackFull_iff (s : State) : stackFull s = true ↔ s.config.stackDepth = some s.stack.length := by
  simp [stackFull]

theorem whenNext_execCall {nnn : Addr12} {s : State}
    (h : s.config.stackDepth ≠ some s.stack.length → P (setPc (zext16 nnn) (setStack (s.pc :: s.stack) s))) :
    WhenNext P (execCall nnn s) := by
  unfold execCall
  split
  · exact whenNext_raise _
  · next hfull => exact whenNext_next (h (mt (stackFull_iff s).2 hfull))

end Sys2Proof.Machine
end

section
/-! PROOFS. Frames of the shared writes and of the phases of a step, beside those of Sys2Proof/Laws/Frame.lean. -/

namespace Sys2Proof.Machine

theorem Same.trans {p : Part} {s t u : State} (h : Same p s t) (k : Same p t u) : Same p s u := by
  cases p
  case v | mem => exact fun a => (k a).trans (h a)
  case fb => exact fun c r => (k c r).trans (h c r)
  all_goals exact Eq.trans k h

theorem Same.refl (p : Part) (s : State) : Same p s s := by
  cases p
  case v | mem => exact fun _ => rfl
  case fb => exact fun _ _ => rfl
  all_goals exact rfl

/-- Two frames in sequence: what neither names is kept. -/
theorem OnlyChanges.andThen {ps qs rs : List Part} {s t u : State} (h : OnlyChanges ps s t) (k : OnlyChanges qs t u)
    (hps : ∀ p ∈ ps, p ∈ rs := by simp [partsWritten]) (hqs : ∀ p ∈ qs, p ∈ rs := by simp [partsWritten]) :
    OnlyChanges rs s u :=
  (h.mono hps).trans (k.mono hqs)

theorem onlyChanges_setDt (b : Byte) (s : State) : OnlyChanges [.dt] s (setDt b s) := by
  intro p hp
  cases p <;> simp [Same] at *

theorem onlyChanges_setSt (b : Byte) (s : State) : OnlyChanges [.st] s (setSt b s) := by
  intro p hp
  cases p <;> simp [Same] at *

theorem onlyChanges_setStack (k : List Word) (s : State) : OnlyChanges [.stack] s (setStack k s) := by
  intro p hp
  cases p <;> simp [Same] at *

theorem onlyChanges_setPaused (b : Bool) (s : State) : OnlyChanges [.paused] s (setPaused b s) := by
  intro p hp
  cases p <;> simp [Same] at *

theorem onlyChanges_setKwx (x : RegIdx) (s : State) : OnlyChanges [.kwx] s (setKwx x s) := by
  intro p hp
  cases p <;> simp [Same] at *

theorem onlyChanges_addRequest (q : PortRequest) (s : State) : OnlyChanges [.requests] s (addRequest q s) := by
  intro p hp
  cases p <;> simp [Same] at *

theorem onlyChanges_displayClear (s : State) : OnlyChanges [.fb, .requests] s (displayClear s) := by
  intro p hp
  cases p <;> simp [Same, displayClear] at *

theorem onlyChanges_timerStep (s : State) : OnlyChanges [.dt, .st] s (timerStep s) :=
  (onlyChanges_setDt _ s).andThen (onlyChanges_setSt _ _)

theorem onlyChanges_closeTick (s : State) :
    OnlyChanges [.inputs, .ticks, .frameStarted, .midFrame] s (closeTick s) := by
  intro p hp
  cases p <;> simp [Same] at *

theorem onlyChanges_endTick (s : State) :
    OnlyChanges [.dt, .st, .inputs, .ticks, .frameStarted, .midFrame] s (closeTick (timerStep s)) :=
  (onlyChanges_timerStep s).andThen (onlyChanges_closeTick _)

theorem onlyChanges_deliverKeys (ks : List KeyCode) (s : State) : OnlyChanges [.v, .paused] s (deliverKeys ks s) := by
  by_cases hw : Waiting s
  · cases ks with
    | nil => rw [deliverKeys_nil]; exact fun p _ => Same.refl p s
    | cons k ks =>
      rw [deliverKeys_cons_of_waiting hw, keyPress_of_waiting hw]
      exact (onlyChanges_writeReg _ _ s).andThen (onlyChanges_setPaused _ _)
  · rw [deliverKeys_of_not_waiting hw]; exact fun p _ => Same.refl p s

theorem memReadBytes_length {a n : Nat} {s : State} {bs : List Byte} (h : memReadBytes a n s = .ok bs) :
    bs.length = n := by
  by_cases hr : a + n ≤ memSize
  · obtain rfl := Except.ok.inj ((memReadBytes_ok n a s hr).symm.trans h)
    simp
  · cases n with
    | zero => cases h; rfl
    | succ n =>
      rw [memReadBytes_fault _ a s (by omega) n.succ_pos] at h
      cases h

/-- Stores from `a` up touch memory alone. -/
theorem onlyChanges_memWriteBytes {bs : List Byte} {a : Nat} {s t : State} (h : memWriteBytes a bs s = .ok t) :
    OnlyChanges [.mem] s t := by
  obtain ⟨m, rfl, -⟩ := memWriteBytes_next h
  exact onlyChanges_setMem m s

/-- Stores that complete change no byte outside their block. -/
theorem byteAt_memWriteBytes_outside {bs : List Byte} {a : Nat} {s t : State} (h : memWriteBytes a bs s = .ok t)
    {c : Nat} (hc : c < a ∨ a + bs.length ≤ c) : byteAt c t = byteAt c s := by
  by_cases hr : a + bs.length ≤ memSize
  · obtain ⟨m, hm, hread, -⟩ := memWriteBytes_ok bs a s hr
    obtain rfl : setMem m s = t := Except.ok.inj (hm.symm.trans h)
    simpa [byteAt, show ¬ (a ≤ c ∧ c - a < bs.length) by omega] using hread c
  · rcases bs with _ | ⟨b, rest⟩
    · cases h; rfl
    · rw [memWriteBytes_fault _ a s (by omega) (List.cons_ne_nil b rest)] at h
      cases h

end Sys2Proof.Machine
end

section
/-! PROOFS. What an instruction that completes can have done: its parts, its registers, its bytes, one fact an instruction
where it names the part and one argument for all others (10_state.md R24 to R38, 20_memory.md R60, R69). -/

namespace Sys2Proof.Machine

/-- The frame of every instruction, by parts of State. -/
theorem exec_onlyChanges (i : Instr) (s : State) : WhenNext (OnlyChanges (partsWritten i) s) (exec i s) := by
  cases i with
  | cls => exact whenNext_next (onlyChanges_displayClear s)
  | ret => exact whenNext_execRet fun a rest _ => (onlyChanges_setStack rest s).andThen (onlyChanges_setPc a _)
  | call nnn => exact whenNext_execCall fun _ => (onlyChanges_setStack _ s).andThen (onlyChanges_setPc _ _)
  | jp nnn | jpV0 nnn => exact whenNext_next (onlyChanges_setPc _ s)
  | seImm x kk | sneImm x kk | seReg x y | sneReg x y => exact whenNext_next (onlyChanges_skipIf _ s)
  | ldImm | addImm | ldReg | orReg | andReg | xorReg | ldVxDT => exact whenNext_next (onlyChanges_writeReg _ _ s)
  | addReg | subReg | shr | subnReg | shl => exact whenNext_next (onlyChanges_writeReg_writeFlag _ _ _ s)
  | ldI | addI | ldF => exact whenNext_next (onlyChanges_setI _ s)
  | rnd x kk => exact whenNext_next ((onlyChanges_addRequest _ s).andThen (onlyChanges_writeReg x _ _))
  | drw x y n =>
    exact whenNext_orRaise fun bs _ => whenNext_next
      ((onlyChanges_setPixels _ s).andThen (onlyChanges_writeReg flagReg _ _))
  | skp | sknp => exact whenNext_next ((onlyChanges_addRequest _ s).andThen (onlyChanges_skipIf _ _))
  | ldVxK x => exact whenNext_next ((onlyChanges_setKwx x s).andThen (onlyChanges_setPaused true _))
  | ldDTVx x => exact whenNext_next (onlyChanges_setDt _ s)
  | ldSTVx x => exact whenNext_next (onlyChanges_setSt _ s)
  | ldB | stRegs => exact whenNext_orRaise fun _ ht => whenNext_next (onlyChanges_memWriteBytes ht)
  | ldRegs x => exact whenNext_orRaise fun bs _ => whenNext_next (onlyChanges_writeRegs 0 bs s)

/-- Registers kept by parts are kept by name. -/
theorem OnlyChanges.regsKeptBut {ps : List Part} {s t : State} (h : OnlyChanges ps s t) (hv : .v ∉ ps)
    (xs : List RegIdx) : RegsKeptBut xs s t := fun r _ => h .v hv r

/-- The frame of every instruction, by registers. -/
theorem exec_regsKeptBut (i : Instr) (s : State) : WhenNext (RegsKeptBut (regsWritten i) s) (exec i s) := by
  cases i with
  | ldImm | addImm | ldReg | orReg | andReg | xorReg | rnd | ldVxDT => exact whenNext_next (regsKeptBut_writeReg _ _ _)
  | addReg | subReg | shr | subnReg | shl => exact whenNext_next (regsKeptBut_writeReg_writeFlag _ _ _ s)
  | drw x y n =>
    refine whenNext_orRaise fun bs _ => whenNext_next fun r hr => ?_
    have hpixels : readReg r (setPixels _ s).2 = readReg r s :=
      onlyChanges_setPixels (spritePixels (readReg x s).toNat (readReg y s).toNat bs) s .v (by decide) r
    exact (regsKeptBut_writeReg flagReg _ _ r hr).trans hpixels
  | ldRegs x =>
    refine whenNext_orRaise fun bs hbs => whenNext_next fun r hr => ?_
    have hlen : bs.length = x.val + 1 := memReadBytes_length hbs
    have hx : ¬ r.val ≤ x.val := by simpa [regsWritten] using hr
    simp [readReg_writeRegs, hlen, show ¬ r.val < x.val + 1 by omega]
  | _ => exact fun t h => (exec_onlyChanges _ s t h).regsKeptBut (by simp [partsWritten]) _

/-- The frame of every instruction, by bytes of memory. -/
theorem exec_byteAt_kept (i : Instr) (s : State) :
    WhenNext (fun t => ∀ a, ¬ Stores i s a → byteAt a t = byteAt a s) (exec i s) := by
  cases i with
  | ldB x =>
    refine whenNext_orRaise fun t ht => whenNext_next fun a ha => byteAt_memWriteBytes_outside ht ?_
    simp only [Stores, dataAddr] at ha
    simp only [bcdDigits, dataAddr, List.length_cons, List.length_nil]
    omega
  | stRegs x =>
    refine whenNext_orRaise fun t ht => whenNext_next fun a ha => byteAt_memWriteBytes_outside ht ?_
    simp only [Stores, dataAddr] at ha
    simp only [regsUpTo_length, dataAddr]
    omega
  | _ => exact fun t h a _ => exec_onlyChanges _ s t h .mem (by simp [partsWritten]) a

/-- Every instruction keeps the canonical form of memory (log 13): the list itself is kept, but for the stores. -/
theorem exec_mem_wf (i : Instr) (s : State) (hs : Memory.wf s.config.font s.mem) :
    WhenNext (fun t => Memory.wf s.config.font t.mem) (exec i s) := by
  cases i with
  | ret => exact whenNext_execRet fun _ _ _ => hs
  | call => exact whenNext_execCall fun _ => hs
  | drw x y n =>
    refine whenNext_orRaise fun bs _ => whenNext_next ?_
    obtain ⟨fb, rs, hp⟩ := setPixels_eq (spritePixels (readReg x s).toNat (readReg y s).toNat bs) s
    simpa [hp] using hs
  | ldRegs x =>
    refine whenNext_orRaise fun bs _ => whenNext_next ?_
    obtain ⟨v, hv⟩ := writeRegs_eq_set_v bs 0 s
    simpa [hv] using hs
  | ldB | stRegs =>
    refine whenNext_orRaise fun t ht => whenNext_next ?_
    obtain ⟨m, rfl, hwf⟩ := memWriteBytes_next ht
    exact hwf hs
  | seImm | sneImm | seReg | sneReg | skp | sknp => exact whenNext_next (by simpa [isPressed] using hs)
  | _ => exact whenNext_next hs

/-- The configuration (10_state.md R41), and what only the end of a frame and a fault write. -/
def constantParts : List Part := [.config, .tone, .fault]

theorem constantParts_not_written {p : Part} (hp : p ∈ constantParts) (i : Instr) : p ∉ partsWritten i := by
  simp only [constantParts, List.mem_cons, List.not_mem_nil, or_false] at hp
  obtain rfl | rfl | rfl := hp <;> cases i <;> simp [partsWritten]

theorem exec_config {i : Instr} {s t : State} (h : exec i s = .next t) : t.config = s.config :=
  exec_onlyChanges i s t h .config (constantParts_not_written (by decide) i)

/-! Where an instruction leaves `pc` and the stack. -/

theorem zext16_toNat_le (nnn : Addr12) : (zext16 nnn).toNat ≤ 0xFFF := by
  have hlt := nnn.isLt
  rw [zext16, BitVec.toNat_setWidth]
  omega

theorem jumpSum_toNat_le (nnn : Addr12) (b : Byte) : (jumpSum nnn b).toNat ≤ 0x10FE := by
  have hnnn := nnn.isLt
  have hb := b.isLt
  rw [jumpSum, BitVec.toNat_ofNat]
  omega

theorem skipIf_pc_toNat_le (c : Bool) (s : State) : (skipIf c s).pc.toNat ≤ s.pc.toNat + 2 := by
  rw [skipIf_pc]
  split
  · rw [BitVec.toNat_add]
    exact Nat.mod_le _ _
  · omega

/-- 10_state.md R31: the highest `pc` is that of `Bnnn` with both operands all ones. -/
theorem exec_pc_le (i : Instr) (s : State) (hpc : s.pc.toNat ≤ 0x1000) (hstack : ∀ a ∈ s.stack, a.toNat ≤ 0x1000) :
    WhenNext (fun t => t.pc.toNat ≤ 0x10FE) (exec i s) := by
  cases i with
  | ret =>
    refine whenNext_execRet fun a rest hcons => ?_
    have := hstack a (by simp [hcons])
    simp only [setPc_pc]
    omega
  | jp nnn => exact whenNext_next ((zext16_toNat_le nnn).trans (by omega))
  | call nnn => exact whenNext_execCall fun _ => (zext16_toNat_le nnn).trans (by omega)
  | jpV0 nnn => exact whenNext_next (jumpSum_toNat_le nnn _)
  | seImm | sneImm | seReg | sneReg | skp | sknp =>
    exact whenNext_next ((skipIf_pc_toNat_le _ _).trans ((Nat.add_le_add_right hpc 2).trans (by decide)))
  | _ =>
    intro t h
    have hkept : t.pc = s.pc := exec_onlyChanges _ s t h .pc (by simp [partsWritten])
    rw [hkept]
    omega

/-- 10_state.md R35: the stack is kept, loses its top, or gains the address of the following instruction where the depth
leaves room. -/
theorem exec_stack_cases (i : Instr) (s : State) :
    WhenNext (fun t => t.stack = s.stack ∨ (∃ a, s.stack = a :: t.stack) ∨
      (t.stack = s.pc :: s.stack ∧ s.config.stackDepth ≠ some s.stack.length)) (exec i s) := by
  cases i with
  | ret => exact whenNext_execRet fun a rest hcons => .inr (.inl ⟨a, hcons⟩)
  | call nnn => exact whenNext_execCall fun hroom => .inr (.inr ⟨rfl, hroom⟩)
  | _ => exact fun t h => .inl (exec_onlyChanges _ s t h .stack (by simp [partsWritten]))

end Sys2Proof.Machine
end

section
/-! PROOFS. The invariant (10_state.md R31, R35, R36; 20_memory.md R60): the execute phase keeps it, the other phases do not
touch what it speaks of, so every step keeps it. -/

namespace Sys2Proof.Machine

/-- The invariant speaks of memory, the font, `pc`, the stack and its depth alone. -/
theorem Inv.congr {s t : State} (h : Inv s) (hm : t.mem = s.mem) (hc : t.config = s.config) (hpc : t.pc = s.pc)
    (hk : t.stack = s.stack) : Inv t where
  mem_wf := hm ▸ hc ▸ h.mem_wf
  pc_le := hpc ▸ h.pc_le
  stack_range := hk ▸ h.stack_range
  stack_depth := hk ▸ hc ▸ h.stack_depth

theorem Inv.after_deliverKeys {s : State} (h : Inv s) (ks : List KeyCode) : Inv (deliverKeys ks s) := by
  obtain ⟨v, p, hd⟩ := deliverKeys_eq ks s
  rw [hd]
  exact h.congr rfl rfl rfl rfl

theorem Inv.after_endTick {s : State} (h : Inv s) : Inv (closeTick (timerStep s)) := h.congr rfl rfl rfl rfl

/-- After a fetch the advanced `pc` is a return address (10_state.md R35). -/
theorem advancePc_pc_range {i : Instr} {s : State} (h : Fetches i s) :
    2 ≤ (advancePc s).pc.toNat ∧ (advancePc s).pc.toNat ≤ 0x1000 := by
  have hpc : s.pc.toNat + 1 < 4096 := h.1
  rw [advancePc_pc, BitVec.toNat_add, show (2#16).toNat = 2 from rfl]
  omega

/-- The instruction fetched in a state with the invariant leaves one with it. -/
theorem Inv.after_exec {i : Instr} {s t : State} (h : Inv s) (hf : Fetches i s) (he : exec i (advancePc s) = .next t) :
    Inv t := by
  obtain ⟨hlow, hhigh⟩ := advancePc_pc_range hf
  have hc : t.config = s.config := (exec_config he).trans (advancePc_config s)
  have hstack := exec_stack_cases i (advancePc s) t he
  simp only [advancePc_stack, advancePc_config] at hstack
  refine ⟨hc ▸ exec_mem_wf i (advancePc s) h.mem_wf t he,
    exec_pc_le i (advancePc s) hhigh (fun a ha => (h.stack_range a ha).2) t he, ?_, ?_⟩
  · obtain hk | ⟨a, hk⟩ | ⟨hk, -⟩ := hstack
    · exact hk ▸ h.stack_range
    · exact fun b hb => h.stack_range b (hk ▸ List.mem_cons_of_mem a hb)
    · rw [hk]
      exact List.forall_mem_cons.2 ⟨⟨hlow, hhigh⟩, h.stack_range⟩
  · intro n hn
    have hdepth := h.stack_depth n (hc ▸ hn)
    obtain hk | ⟨a, hk⟩ | ⟨hk, hroom⟩ := hstack
    · exact hk ▸ hdepth
    · rw [hk, List.length_cons] at hdepth
      omega
    · have hne : n ≠ s.stack.length := fun e => hroom (by rw [← hc, hn, e])
      rw [hk, List.length_cons]
      omega

/-- Settles O9: the events and the timer step touch nothing the invariant speaks of, and the execute phase keeps it. -/
theorem everyStepKeepsInv : Obligations.EveryStepKeepsInv := by
  unfold Obligations.EveryStepKeepsInv
  intro s t hinv hstep
  obtain ⟨-, rfl⟩ | ⟨-, u, rfl, ⟨-, rfl⟩ | ⟨-, i, w, hf, he, rfl⟩⟩ := step_next_cases hstep
  · exact hinv
  · exact (hinv.after_deliverKeys _).after_endTick
  · exact ((hinv.after_deliverKeys _).after_exec hf he).after_endTick

/-- Settles O52, one frame for each of the three ways to name what changes. -/
theorem everyInstructionWritesOnlyItsOwnParts : Obligations.EveryInstructionWritesOnlyItsOwnParts := by
  unfold Obligations.EveryInstructionWritesOnlyItsOwnParts
  exact fun i s t h => ⟨exec_onlyChanges i s t h, exec_regsKeptBut i s t h, exec_byteAt_kept i s t h⟩

/-- The parts a step may write beside those of its instruction: event delivery, the pre-increment, the timer step and the
model's own bookkeeping (40_engine_cycle.md R121 to R123; log 2, log 8). -/
def enginePartsWritten : List Part :=
  [.v, .paused, .pc, .dt, .st, .inputs, .ticks, .frameStarted, .midFrame]

/-- A part that neither the engine nor any instruction writes is kept by every step. -/
theorem step_same {p : Part} {s t : State} (h : step s = .next t) (hp : p ∉ enginePartsWritten)
    (hi : ∀ i, p ∉ partsWritten i) : Same p s t := by
  have hkeys := (onlyChanges_deliverKeys (currentInput s).keyPresses s).mono (by decide) p hp
  have hadvance (u : State) : Same p u (advancePc u) := (onlyChanges_setPc _ u).mono (by decide) p hp
  have hend (u : State) : Same p u (closeTick (timerStep u)) := (onlyChanges_endTick u).mono (by decide) p hp
  obtain ⟨-, rfl⟩ | ⟨-, u, rfl, ⟨-, rfl⟩ | ⟨-, i, w, -, he, rfl⟩⟩ := step_next_cases h
  · exact Same.refl p _
  · exact hkeys.trans (hend _)
  · have hexec := exec_onlyChanges i _ w he p (hi i)
    exact ((hkeys.trans (hadvance _)).trans hexec).trans (hend w)

/-- Settles O55: neither the engine nor any instruction writes any of the three parts. -/
theorem stepKeepsConfigurationAndTone : Obligations.StepKeepsConfigurationAndTone := by
  unfold Obligations.StepKeepsConfigurationAndTone
  intro s t h
  have hengine : ∀ p ∈ constantParts, p ∉ enginePartsWritten := by decide
  have hkept (p : Part) (hp : p ∈ constantParts) : Same p s t :=
    step_same h (hengine p hp) (constantParts_not_written hp)
  exact ⟨hkept .config (by decide), hkept .tone (by decide), hkept .fault (by decide)⟩

/-! The key wait (10_state.md R37, R38, R40). -/

theorem paused_mem_partsWritten {i : Instr} : .paused ∈ partsWritten i ↔ ∃ x, i = .ldVxK x := by
  cases i <;> simp [partsWritten]

/-- A step of a running core executes what it fetched. -/
theorem step_next_of_running {s t : State} (hr : Running s) (h : step s = .next t) :
    ∃ i w, Fetches i s ∧ exec i (advancePc s) = .next w ∧ t = closeTick (timerStep w) := by
  obtain ⟨hf, -⟩ | ⟨-, u, hu, ⟨hp, -⟩ | ⟨-, hex⟩⟩ := step_next_cases h
  · exact absurd hr.1 hf
  · rw [hu, deliverKeys_of_running hr, hr.2] at hp
    cases hp
  · rwa [hu, deliverKeys_of_running hr] at hex

/-- Settles O56: `paused` is written by `Fx0A` alone, and a state fetches one instruction. -/
theorem onlyTheKeyWaitPauses : Obligations.OnlyTheKeyWaitPauses := by
  unfold Obligations.OnlyTheKeyWaitPauses
  intro s t hr hstep
  obtain ⟨i, w, hf, he, rfl⟩ := step_next_of_running hr hstep
  by_cases hi : ∃ x, i = .ldVxK x
  · obtain ⟨x, rfl⟩ := hi
    obtain rfl : setPaused true (setKwx x (advancePc s)) = w := Host.Outcome.next.inj he
    exact iff_of_true rfl ⟨x, hf, rfl⟩
  · have hkept : w.paused = s.paused := exec_onlyChanges i _ w he .paused (mt paused_mem_partsWritten.1 hi)
    have hrun : w.paused = false := hkept.trans hr.2
    constructor
    · intro hp
      simp [hrun] at hp
    · rintro ⟨x, hx, -⟩
      exact absurd ⟨x, hf.unique hx⟩ hi

end Sys2Proof.Machine
end

section
/-! PROOFS. Reset, and the halted core (10_state.md R39, R45). -/

namespace Sys2Proof.Machine

/-- Memory that lists nothing reads as the font and then zeros (20_memory.md R63). -/
theorem byteAt_of_mem_nil {s : State} (h : s.mem = []) (a : Nat) : byteAt a s = unlistedByte s.config.font a := by
  simp [byteAt, h, lookupByte]

/-- Settles O6: each value is the one State.reset names. -/
theorem resetLeavesTheStatedValues : Obligations.ResetLeavesTheStatedValues := by
  unfold Obligations.ResetLeavesTheStatedValues
  refine ⟨fun x => ?_, rfl, rfl, rfl, rfl, rfl, rfl, rfl, rfl, fun a ha => ?_, fun a ha => ?_⟩
  · simp [readReg, State.reset]
  · simp [byteAt_of_mem_nil (s := State.reset) rfl, unlistedByte, ha]
  · simp [byteAt_of_mem_nil (s := State.reset) rfl, unlistedByte, Nat.not_lt.2 ha]

/-- Settles O8: memory lists no cell and the stack is empty. -/
theorem resetStateSatisfiesInv : Obligations.ResetStateSatisfiesInv where
  mem_wf := reset_mem_wf
  pc_le := by decide
  stack_range := fun _ ha => nomatch ha
  stack_depth := fun n _ => Nat.zero_le n

theorem step_of_fault {s : State} {f : Fault} (h : s.fault = some f) : step s = .next s := by simp [step_eq, h]

theorem runFrame_of_halted {s : State} {f : Fault} (h : s.fault = some f) (u : State) : runFrame u s = .reported f s := by
  simp only [runFrame, h]

/-- A frame that reports a fault leaves it latched. -/
theorem runFrame_reported {u s t : State} {f : Fault} (h : runFrame u s = .reported f t) : t.fault = some f := by
  cases hf : s.fault with
  | some g =>
    rw [runFrame_of_halted hf] at h
    cases h
    exact hf
  | none =>
    simp only [runFrame, hf] at h
    split at h
    · cases h
    · cases h
      rfl
    · cases h

/-- Settles O17: a halted core neither waits nor steps, and the fault is cleared by the reset values. -/
theorem haltedCoreDoesNothingUntilReset : Obligations.HaltedCoreDoesNothingUntilReset := by
  unfold Obligations.HaltedCoreDoesNothingUntilReset
  intro s f hf
  have hw : ¬ Waiting s := fun h => by simp [h.1] at hf
  exact ⟨step_of_fault hf, keyPress_of_not_waiting hw, runFrame_of_halted hf, rfl, rfl⟩

/-- Settles O49: the latched fault makes the state a halted one. -/
theorem reportedFaultIsSticky : Obligations.ReportedFaultIsSticky := by
  unfold Obligations.ReportedFaultIsSticky
  intro u s t f h
  have hf := runFrame_reported h
  exact ⟨hf, step_of_fault hf, runFrame_of_halted hf⟩

end Sys2Proof.Machine
end

section
/-! PROOFS. Memory: one access (20_memory.md R61, R62), fetch (R66, R68), and a stored block as the next fetch reads it
(R66, R75). -/

namespace Sys2Proof.Machine

/-! One write inside memory and one outside, beside the reads of Sys2Proof/Laws/Memory.lean. -/

theorem memWrite_of_lt {a : Nat} (b : Byte) {s : State} (h : a < memSize) :
    memWrite a b s = .ok (setMem (storeByte s.config.font a b s.mem) s) := by
  simp [memWrite, h]

theorem memWrite_of_ge {a : Nat} (b : Byte) {s : State} (h : memSize ≤ a) :
    memWrite a b s = .error (.outOfRange a) := by
  simp [memWrite, Nat.not_lt.2 h]

/-- Settles O12: a stored byte is looked up at its own address alone. -/
theorem memoryReadAfterWrite : Obligations.MemoryReadAfterWrite := by
  unfold Obligations.MemoryReadAfterWrite
  intro s a b
  refine ⟨fun ha => ⟨memRead_of_lt ha, _, memWrite_of_lt b ha, ?_, fun c hc => ?_, onlyChanges_setMem _ s⟩,
    fun ha => ⟨memRead_of_ge ha, memWrite_of_ge b ha⟩⟩
  · rw [memRead_of_lt ha, byteAt_setMem_storeByte, if_pos rfl]
  · rw [byteAt_setMem_storeByte, if_neg hc]

/-- Settles O11: the first address out of range is `pc` itself, or `pc + 1` when `pc` is the last cell. -/
theorem fetchReadsTheHigherByteFirst : Obligations.FetchReadsTheHigherByteFirst := by
  unfold Obligations.FetchReadsTheHigherByteFirst
  intro s
  have hsize : memSize = 4096 := rfl
  refine ⟨fun h => ⟨_, fetchWord_ok (by omega), wordOfBytes_toNat _ _⟩, fun h => ?_, fun h => ?_⟩
  · rw [fetchWord_fault (by omega), h, hsize]
    rfl
  · rw [fetchWord_fault (by omega), hsize, max_eq_left h]

/-! Stores from `a` up that complete. -/

theorem memWriteBytes_in_range {bs : List Byte} {a : Nat} {s t : State} (h : memWriteBytes a bs s = .ok t)
    (hne : bs ≠ []) : a + bs.length ≤ memSize := by
  by_contra hr
  rw [memWriteBytes_fault bs a s (by omega) hne] at h
  cases h

/-- Each address of the block holds the byte stored there. -/
theorem byteAt_memWriteBytes_inside {bs : List Byte} {a : Nat} {s t : State} (h : memWriteBytes a bs s = .ok t)
    {k : Nat} (hk : k < bs.length) : byteAt (a + k) t = bs[k] := by
  have hrange := memWriteBytes_in_range h (List.ne_nil_of_length_pos (by omega))
  obtain ⟨m, hm, hread, -⟩ := memWriteBytes_ok bs a s hrange
  obtain rfl : setMem m s = t := Except.ok.inj (hm.symm.trans h)
  simpa [byteAt, hk] using hread (a + k)

theorem orRaise_eq_next {α : Type} {r : Except Fault α} {k : α → Result} {t : State} :
    orRaise r k = .next t ↔ ∃ a, r = .ok a ∧ k a = .next t := by
  cases r <;> simp

/-- `Fx55` that completes made the stores of `V0`..`Vx` (43_index_memory.md R184). -/
theorem exec_stRegs_next {x : RegIdx} {s t : State} (h : exec (.stRegs x) s = .next t) :
    memWriteBytes (dataAddr 0 s) (regsUpTo x s) s = .ok t := by
  obtain ⟨u, hu, ht⟩ := orRaise_eq_next.1 h
  rw [hu, Host.Outcome.next.inj ht]

/-- The block of a completed `Fx55` lies inside memory. -/
theorem exec_stRegs_in_range {x : RegIdx} {s t : State} (h : exec (.stRegs x) s = .next t) :
    dataAddr x.val s < memSize := by
  have hlen := regsUpTo_length x s
  have hrange := memWriteBytes_in_range (exec_stRegs_next h) (List.ne_nil_of_length_pos (by omega))
  rw [hlen] at hrange
  exact hrange

/-- After a completed `Fx55` the address `I + k` holds `V[k]`. -/
theorem byteAt_exec_stRegs {x : RegIdx} {s t : State} (h : exec (.stRegs x) s = .next t) (k : RegIdx)
    (hk : k.val ≤ x.val) : byteAt (dataAddr k.val s) t = readReg k s := by
  have hlen : k.val < (regsUpTo x s).length := by rw [regsUpTo_length]; omega
  exact (byteAt_memWriteBytes_inside (exec_stRegs_next h) hlen).trans (regsUpTo_getElem x s k.val hlen k.isLt)

/-- Settles O39: with `x` at least 1 both bytes of the fetch are bytes of the block. -/
theorem storeIsSeenByTheNextFetch : Obligations.StoreIsSeenByTheNextFetch := by
  unfold Obligations.StoreIsSeenByTheNextFetch
  intro x s t u hx h hmem hconfig hpc
  have hlast := exec_stRegs_in_range h
  have hnext : u.pc.toNat + 1 = dataAddr 1 s := by rw [hpc]; rfl
  have hrange : u.pc.toNat + 1 < memSize := by
    rw [hnext]
    exact (Nat.add_le_add_left hx _).trans_lt hlast
  have hhi : byteAt (dataAddr 0 s) t = readReg 0 s := byteAt_exec_stRegs h 0 (Nat.zero_le _)
  have hlo : byteAt (dataAddr 1 s) t = readReg 1 s := byteAt_exec_stRegs h 1 hx
  rw [fetchWord_ok hrange, hnext, hpc, byteAt_congr hmem hconfig, byteAt_congr hmem hconfig, hhi, hlo]

end Sys2Proof.Machine
end

section
/-! PROOFS. Encoding (30_encoding.md R90 to R98): the two round trips, and the decoder against the opcode map. -/

namespace Sys2Proof

open Laws.EncodingRow (packNNN_masked packXKK_masked_op packXKK_masked_sub packXYN_masked_op packXYN_masked_sub
  rowOf_mem)

/-! A word whose fixed fields are known is the pack of them and of its other fields. -/

theorem packNNN_of_op {op : BitVec 4} {w : Word} (hop : opField w = op) : packNNN op (nnnField w) = w := by
  rw [← hop, packNNN_fields]

theorem packXKK_of_op {op : BitVec 4} {w : Word} (hop : opField w = op) :
    packXKK op (xField w) (kkField w) = w := by
  rw [← hop, packXKK_fields]

theorem packXKK_of_op_kk {op : BitVec 4} {kk : Byte} {w : Word} (hop : opField w = op) (hkk : kkField w = kk) :
    packXKK op (xField w) kk = w := by
  rw [← hkk, packXKK_of_op hop]

theorem packXYN_of_op {op : BitVec 4} {w : Word} (hop : opField w = op) :
    packXYN op (xField w) (yField w) (nField w) = w := by
  rw [← hop, packXYN_fields]

theorem packXYN_of_op_n {op n : BitVec 4} {w : Word} (hop : opField w = op) (hn : nField w = n) :
    packXYN op (xField w) (yField w) n = w := by
  rw [← hn, packXYN_of_op hop]

/-! The decoder's answers. -/

/-- A right answer on `w`: an instruction whose word is `w`, or the rejection that names `w` (R98). -/
def AnswersFor (w : Word) : Except DecodeError Instr → Prop
  | .ok i => encode i = w
  | .error e => e = .unknownOpcode w

theorem decodeClass8_answers {w : Word} (hop : opField w = 0x8#4) : AnswersFor w (decodeClass8 w) := by
  unfold decodeClass8
  split
  case h_10 => rfl
  all_goals exact packXYN_of_op_n hop ‹_›

theorem decodeClassE_answers {w : Word} (hop : opField w = 0xE#4) : AnswersFor w (decodeClassE w) := by
  unfold decodeClassE
  split
  case h_3 => rfl
  all_goals exact packXKK_of_op_kk hop ‹_›

theorem decodeClassF_answers {w : Word} (hop : opField w = 0xF#4) : AnswersFor w (decodeClassF w) := by
  unfold decodeClassF
  split
  case h_10 => rfl
  all_goals exact packXKK_of_op_kk hop ‹_›

theorem decodeWord_answers (w : Word) : AnswersFor w (decodeWord w) := by
  unfold decodeWord
  split
  case h_1 =>
    split
    · next h => exact h.symm
    · split
      · next h => exact h.symm
      · rfl
  case h_6 | h_10 =>
    split
    · next hn => exact packXYN_of_op_n ‹_› hn
    · rfl
  case h_2 | h_3 | h_11 | h_12 => exact packNNN_of_op ‹_›
  case h_4 | h_5 | h_7 | h_8 | h_13 => exact packXKK_of_op ‹_›
  case h_9 => exact decodeClass8_answers ‹_›
  case h_14 => exact packXYN_of_op ‹_›
  case h_15 => exact decodeClassE_answers ‹_›
  case h_16 => exact decodeClassF_answers ‹_›
  case h_17 => rfl

theorem encode_of_decodeWord {w : Word} {i : Instr} (h : decodeWord w = .ok i) : encode i = w := by
  have ha := decodeWord_answers w
  rwa [h] at ha

theorem error_of_decodeWord {w : Word} {e : DecodeError} (h : decodeWord w = .error e) : e = .unknownOpcode w := by
  have ha := decodeWord_answers w
  rwa [h] at ha

/-- Settles O2: each leaf of the decoder fixes the fields it drops from the instruction. -/
theorem encodeOfDecodeIsTheWord : Obligations.EncodeOfDecodeIsTheWord := by
  unfold Obligations.EncodeOfDecodeIsTheWord
  exact fun _ _ => encode_of_decodeWord

/-! Decoding a word that was encoded: its `op` leads to the instruction's class, and there its `n` or `kk` to its arm. -/

theorem decodeWord_encode (i : Instr) : decodeWord (encode i) = .ok i := by
  cases i
  case cls | ret => rfl
  case jp | call | ldI | jpV0 | seImm | sneImm | ldImm | addImm | rnd | seReg | sneReg | drw =>
    simp [encode, decodeWord]
  case ldReg | orReg | andReg | xorReg | addReg | subReg | shr | subnReg | shl =>
    simp [encode, decodeWord, decodeClass8]
  case skp | sknp => simp [encode, decodeWord, decodeClassE]
  case ldVxDT | ldVxK | ldDTVx | ldSTVx | addI | ldF | ldB | stRegs | ldRegs =>
    simp [encode, decodeWord, decodeClassF]

theorem decodeBytes_encodeBytes (i : Instr) (rest : List Byte) :
    decodeBytes (encodeBytes i ++ rest) = .ok (i, rest) := by
  simp [encodeBytes, decodeBytes, decodeWord_encode]

/-- Settles O1: the fields of a packed word are the operands packed, and its two bytes make up the word again. -/
theorem decodeOfEncodeIsTheInstruction : Obligations.DecodeOfEncodeIsTheInstruction := by
  unfold Obligations.DecodeOfEncodeIsTheInstruction
  exact fun i rest => ⟨decodeWord_encode i, decodeBytes_encodeBytes i rest⟩

theorem encode_injective : Function.Injective encode := by
  intro i j h
  have hi := decodeWord_encode i
  rw [h, decodeWord_encode] at hi
  exact (Except.ok.inj hi).symm

/-! The rows of the opcode map. -/

/-- The word of an instruction selects the instruction's row: its mask keeps the digits its format fixes. -/
theorem encode_selects_rowOf (i : Instr) : (rowOf i).selects (encode i) := by
  cases i
  case cls | ret => rfl
  case jp | call | ldI | jpV0 => exact (packNNN_masked _ _).trans rfl
  case seImm | sneImm | ldImm | addImm | rnd => exact (packXKK_masked_op _ _ _).trans rfl
  case drw => exact (packXYN_masked_op _ _ _ _).trans rfl
  case seReg | sneReg | ldReg | orReg | andReg | xorReg | addReg | subReg | shr | subnReg | shl =>
    exact (packXYN_masked_sub _ _ _ _).trans rfl
  case skp | sknp | ldVxDT | ldVxK | ldDTVx | ldSTVx | addI | ldF | ldB | stRegs | ldRegs =>
    exact (packXKK_masked_sub _ _ _).trans rfl

/-! What each mask tells of a word: its `op`, its `op` and `kk`, its `op` and `n`. -/

theorem opField_of_masked {op : BitVec 4} {w : Word} (h : w &&& 0xF000#16 = packNNN op 0#12) : opField w = op := by
  rw [← packNNN_fields w, packNNN_masked] at h
  simpa using congrArg opField h

theorem packXKK_of_masked {op : BitVec 4} {kk : Byte} {w : Word} (h : w &&& 0xF0FF#16 = packXKK op 0 kk) :
    packXKK op (xField w) kk = w := by
  rw [← packXKK_fields w, packXKK_masked_sub] at h
  exact packXKK_of_op_kk (by simpa using congrArg opField h) (by simpa using congrArg kkField h)

theorem packXYN_of_masked {op n : BitVec 4} {w : Word} (h : w &&& 0xF00F#16 = packXYN op 0 0 n) :
    packXYN op (xField w) (yField w) n = w := by
  rw [← packXYN_fields w, packXYN_masked_sub] at h
  exact packXYN_of_op_n (by simpa using congrArg opField h) (by simpa using congrArg nField h)

/-- A word that selects a row is the word of an instruction of that row: the one whose operands are its fields. -/
theorem exists_encode_of_selects {i : Instr} {w : Word} (h : (rowOf i).selects w) :
    ∃ j, encode j = w ∧ rowOf j = rowOf i := by
  cases i with
  | cls => exact ⟨.cls, h.symm.trans BitVec.and_allOnes, rfl⟩
  | ret => exact ⟨.ret, h.symm.trans BitVec.and_allOnes, rfl⟩
  | jp => exact ⟨.jp (nnnField w), packNNN_of_op (opField_of_masked h), rfl⟩
  | call => exact ⟨.call (nnnField w), packNNN_of_op (opField_of_masked h), rfl⟩
  | seImm => exact ⟨.seImm (xField w) (kkField w), packXKK_of_op (opField_of_masked h), rfl⟩
  | sneImm => exact ⟨.sneImm (xField w) (kkField w), packXKK_of_op (opField_of_masked h), rfl⟩
  | seReg => exact ⟨.seReg (xField w) (yField w), packXYN_of_masked h, rfl⟩
  | ldImm => exact ⟨.ldImm (xField w) (kkField w), packXKK_of_op (opField_of_masked h), rfl⟩
  | addImm => exact ⟨.addImm (xField w) (kkField w), packXKK_of_op (opField_of_masked h), rfl⟩
  | ldReg => exact ⟨.ldReg (xField w) (yField w), packXYN_of_masked h, rfl⟩
  | orReg => exact ⟨.orReg (xField w) (yField w), packXYN_of_masked h, rfl⟩
  | andReg => exact ⟨.andReg (xField w) (yField w), packXYN_of_masked h, rfl⟩
  | xorReg => exact ⟨.xorReg (xField w) (yField w), packXYN_of_masked h, rfl⟩
  | addReg => exact ⟨.addReg (xField w) (yField w), packXYN_of_masked h, rfl⟩
  | subReg => exact ⟨.subReg (xField w) (yField w), packXYN_of_masked h, rfl⟩
  | shr => exact ⟨.shr (xField w) (yField w), packXYN_of_masked h, rfl⟩
  | subnReg => exact ⟨.subnReg (xField w) (yField w), packXYN_of_masked h, rfl⟩
  | shl => exact ⟨.shl (xField w) (yField w), packXYN_of_masked h, rfl⟩
  | sneReg => exact ⟨.sneReg (xField w) (yField w), packXYN_of_masked h, rfl⟩
  | ldI => exact ⟨.ldI (nnnField w), packNNN_of_op (opField_of_masked h), rfl⟩
  | jpV0 => exact ⟨.jpV0 (nnnField w), packNNN_of_op (opField_of_masked h), rfl⟩
  | rnd => exact ⟨.rnd (xField w) (kkField w), packXKK_of_op (opField_of_masked h), rfl⟩
  | drw => exact ⟨.drw (xField w) (yField w) (nField w).toFin, packXYN_of_op (opField_of_masked h), rfl⟩
  | skp => exact ⟨.skp (xField w), packXKK_of_masked h, rfl⟩
  | sknp => exact ⟨.sknp (xField w), packXKK_of_masked h, rfl⟩
  | ldVxDT => exact ⟨.ldVxDT (xField w), packXKK_of_masked h, rfl⟩
  | ldVxK => exact ⟨.ldVxK (xField w), packXKK_of_masked h, rfl⟩
  | ldDTVx => exact ⟨.ldDTVx (xField w), packXKK_of_masked h, rfl⟩
  | ldSTVx => exact ⟨.ldSTVx (xField w), packXKK_of_masked h, rfl⟩
  | addI => exact ⟨.addI (xField w), packXKK_of_masked h, rfl⟩
  | ldF => exact ⟨.ldF (xField w), packXKK_of_masked h, rfl⟩
  | ldB => exact ⟨.ldB (xField w), packXKK_of_masked h, rfl⟩
  | stRegs => exact ⟨.stRegs (xField w), packXKK_of_masked h, rfl⟩
  | ldRegs => exact ⟨.ldRegs (xField w), packXKK_of_masked h, rfl⟩

/-- The same, of a row of the table. -/
theorem exists_encode_of_mem_selects {r : OpRow} {w : Word} (hr : r ∈ opcodeTable) (h : r.selects w) :
    ∃ j, encode j = w ∧ rowOf j = r := by
  obtain ⟨i, -, rfl⟩ := List.mem_map.1 hr
  exact exists_encode_of_selects h

/-- Settles O3: a word that selects a row is some instruction's word, so it decodes. -/
theorem wordDecodesExactlyWhenARowSelectsIt : Obligations.WordDecodesExactlyWhenARowSelectsIt := by
  unfold Obligations.WordDecodesExactlyWhenARowSelectsIt
  intro w
  cases h : decodeWord w with
  | ok i =>
    obtain rfl := encode_of_decodeWord h
    exact .inl ⟨i, rfl, rowOf_mem i, encode_selects_rowOf i⟩
  | error e =>
    refine .inr ⟨by rw [error_of_decodeWord h], fun r hr hsel => ?_⟩
    obtain ⟨j, rfl, -⟩ := exists_encode_of_mem_selects hr hsel
    rw [decodeWord_encode] at h
    cases h

/-- Settles O4: a word in two rows would be the word of an instruction of each, and no two instructions share a word. -/
theorem atMostOneRowSelectsAWord : Obligations.AtMostOneRowSelectsAWord := by
  unfold Obligations.AtMostOneRowSelectsAWord
  intro w r q hr hq hrw hqw
  obtain ⟨i, hi, rfl⟩ := exists_encode_of_mem_selects hr hrw
  obtain ⟨j, hj, rfl⟩ := exists_encode_of_mem_selects hq hqw
  rw [encode_injective (hi.trans hj.symm)]

/-- Settles O5: the decoder runs on eight closed words. -/
theorem writtenOutWordsDecode : Obligations.WrittenOutWordsDecode := by
  unfold Obligations.WrittenOutWordsDecode
  decide

end Sys2Proof
end

section
/-! PROOFS. The engine cycle (40_engine_cycle.md R121 to R128): what a step does to a running core and to a waiting one, the
key-press event, and a return after a call. -/

namespace Sys2Proof.Machine

theorem thenNext_thenNext (o : Result) (j k : State → State) :
    thenNext (thenNext o j) k = thenNext o (fun t => k (j t)) := by
  cases o <;> rfl

/-! The instruction step, by what `pc` points at (R123). -/

theorem instructionStep_of_in_range {s : State} (h : s.pc.toNat + 1 < memSize) :
    instructionStep s = execWord (wordOfBytes (byteAt s.pc.toNat s) (byteAt (s.pc.toNat + 1) s)) (advancePc s) := by
  rw [instructionStep, fetchWord_ok h, orRaise_ok]

theorem instructionStep_of_out_of_range {s : State} (h : memSize ≤ s.pc.toNat + 1) :
    instructionStep s = .fault (.outOfRange (max s.pc.toNat memSize)) := by
  rw [instructionStep, fetchWord_fault h, orRaise_error]

theorem execWord_of_ok {w : Word} {i : Instr} (h : decodeWord w = .ok i) (s : State) : execWord w s = exec i s := by
  simp only [execWord, h]

theorem execWord_of_error {w : Word} {e : DecodeError} (h : decodeWord w = .error e) (s : State) :
    execWord w s = .fault (.unknownOpcode w) := by
  simp only [execWord, h, raise_eq]

theorem instructionStep_of_fetches {i : Instr} {s : State} (h : Fetches i s) :
    instructionStep s = exec i (advancePc s) := by
  obtain ⟨hpc, hdecode⟩ := h
  rw [instructionStep_of_in_range hpc, execWord_of_ok hdecode]

/-- `Fetches` looks at `pc`, memory and the font alone. -/
theorem Fetches.congr {i : Instr} {s t : State} (h : Fetches i s) (hpc : t.pc = s.pc) (hmem : t.mem = s.mem)
    (hconfig : t.config = s.config) : Fetches i t := by
  unfold Fetches
  rw [hpc, byteAt_congr hmem hconfig, byteAt_congr hmem hconfig]
  exact h

/-! The tick and the step (R121), by the run state the events before the tick leave. -/

theorem tick_of_running {s : State} (h : Running s) : tick s = thenNext (instructionStep s) timerStep := by
  simp [tick, h.1, h.2]

theorem tick_of_waiting {s : State} (h : Waiting s) : tick s = .next (timerStep s) := by
  simp [tick, h.1, h.2]

theorem step_of_no_fault {s : State} (h : s.fault = none) :
    step s = thenNext (tick (deliverKeys (currentInput s).keyPresses s)) closeTick := by
  simp [step_eq, h]

/-- A core that runs once the events are delivered takes its instruction step in the state they leave. -/
theorem step_of_running_after_events {s u : State} (h : s.fault = none)
    (hu : deliverKeys (currentInput s).keyPresses s = u) (hr : Running u) :
    step s = thenNext (instructionStep u) (fun t => closeTick (timerStep t)) := by
  rw [step_of_no_fault h, hu, tick_of_running hr, thenNext_thenNext]

theorem step_of_running {s : State} (h : Running s) :
    step s = thenNext (instructionStep s) (fun t => closeTick (timerStep t)) :=
  step_of_running_after_events h.1 (deliverKeys_of_running h _) h

theorem step_of_waiting {s : State} (h : Waiting s) (hkeys : (currentInput s).keyPresses = []) :
    step s = .next (closeTick (timerStep s)) := by
  rw [step_of_no_fault h.1, hkeys, deliverKeys_nil, tick_of_waiting h, thenNext_next]

/-! The key-press event (R122). -/

theorem running_keyPress {s : State} (h : Waiting s) (k : KeyCode) : Running (keyPress k s) := by
  rw [keyPress_of_waiting h]
  exact ⟨h.1, rfl⟩

theorem readReg_kwx_keyPress {s : State} (h : Waiting s) (k : KeyCode) :
    readReg s.kwx (keyPress k s) = BitVec.ofNat 8 k.val := by
  simp [keyPress_of_waiting h]

theorem Fetches.after_keyPress {i : Instr} {s : State} (h : Fetches i s) (hw : Waiting s) (k : KeyCode) :
    Fetches i (keyPress k s) := by
  rw [keyPress_of_waiting hw]
  exact h.congr rfl rfl rfl

/-- Settles O16: the first event leaves the core running, with the same fetch as before it. -/
theorem keyPressResumesAtPc : Obligations.KeyPressResumesAtPc := by
  unfold Obligations.KeyPressResumesAtPc
  intro s k ks i hw hkeys hf
  have hdeliver : deliverKeys (currentInput s).keyPresses s = keyPress k s := by
    rw [hkeys, deliverKeys_cons_of_waiting hw]
  rw [step_of_running_after_events hw.1 hdeliver (running_keyPress hw k),
    instructionStep_of_fetches (hf.after_keyPress hw k)]

/-- Settles O10: the fetch succeeds inside memory, where the decoder's answer decides, and faults outside. -/
theorem stepRunsTheDecodedInstruction : Obligations.StepRunsTheDecodedInstruction := by
  unfold Obligations.StepRunsTheDecodedInstruction
  intro s hr
  rw [step_of_running hr]
  refine ⟨fun i hf => ?_, fun w e hpc hw he => ?_, fun hpc => ?_⟩
  · rw [instructionStep_of_fetches hf]
  · rw [instructionStep_of_in_range hpc, ← hw, execWord_of_error he, thenNext_fault]
  · rw [instructionStep_of_out_of_range hpc, thenNext_fault]

/-- Settles O13: with no event the core still waits when the tick comes. -/
theorem waitingCoreStepsItsTimersAlone : Obligations.WaitingCoreStepsItsTimersAlone := by
  unfold Obligations.WaitingCoreStepsItsTimersAlone
  exact fun s hw hkeys =>
    ⟨_, step_of_waiting hw hkeys, decTimer_toNat s.dt, decTimer_toNat s.st, onlyChanges_endTick s⟩

/-- Settles O14: in a waiting core the event is one register write and the clearing of `paused`. -/
theorem keyPressEndsTheWait : Obligations.KeyPressEndsTheWait := by
  unfold Obligations.KeyPressEndsTheWait
  refine fun s k => ⟨fun hw => ⟨?_, running_keyPress hw k, ?_, ?_⟩, fun hw => keyPress_of_not_waiting hw k⟩
  · rw [readReg_kwx_keyPress hw, BitVec.toNat_ofNat]
    omega
  · rw [keyPress_of_waiting hw]
    exact regsKeptBut_writeReg s.kwx _ s
  · rw [keyPress_of_waiting hw]
    exact (onlyChanges_writeReg _ _ s).andThen (onlyChanges_setPaused _ _)

/-! Call and return (R124, 41_control_flow.md R140, R142). -/

theorem exec_call_stack {nnn : Addr12} {s t : State} (h : exec (.call nnn) s = .next t) : t.stack = s.pc :: s.stack :=
  whenNext_execCall (P := fun t => t.stack = s.pc :: s.stack) (fun _ => rfl) t h

theorem exec_ret_of_cons {s : State} {a : Word} {rest : List Word} (h : s.stack = a :: rest) :
    exec .ret s = .next (setPc a (setStack rest s)) := by
  simp only [exec, execRet, h]

/-- Settles O23: the return pops what the call pushed. -/
theorem callThenReturnResumes : Obligations.CallThenReturnResumes := by
  unfold Obligations.CallThenReturnResumes
  intro nnn s t u hcall hu
  have hstack : u.stack = s.pc :: s.stack := hu.trans (exec_call_stack hcall)
  exact ⟨_, exec_ret_of_cons hstack, rfl, rfl, (onlyChanges_setStack _ u).andThen (onlyChanges_setPc _ _)⟩

end Sys2Proof.Machine
end

section
/-! PROOFS. Runs of ticks: the frame (40_engine_cycle.md R127, R129) and where a result is read (R130). -/

namespace Sys2Proof.Machine

/-! A run of ticks that completes. -/

theorem runTicks_succ_eq_next {n : Nat} {s t : State} :
    runTicks (n + 1) s = .next t ↔ ∃ m, step s = .next m ∧ runTicks n m = .next t := by
  cases h : step s <;> simp [runTicks, h]

/-- What every step keeps is kept by a run. -/
theorem runTicks_keeps {P : State → Prop} (hstep : ∀ s t, P s → step s = .next t → P t) {n : Nat} :
    ∀ {s t : State}, P s → runTicks n s = .next t → P t := by
  induction n with
  | zero =>
    rintro s t hs ⟨⟩
    exact hs
  | succ n ih =>
    intro s t hs h
    obtain ⟨m, hm, hrun⟩ := runTicks_succ_eq_next.1 h
    exact ih (hstep s m hs hm) hrun

theorem runTicks_config_tone {n : Nat} {s t : State} (h : runTicks n s = .next t) :
    t.config = s.config ∧ t.tone = s.tone := by
  refine runTicks_keeps (P := fun u => u.config = s.config ∧ u.tone = s.tone) ?_ ⟨rfl, rfl⟩ h
  rintro u v ⟨hconfig, htone⟩ huv
  obtain ⟨hconfig', htone', -⟩ := stepKeepsConfigurationAndTone u v huv
  exact ⟨hconfig'.trans hconfig, htone'.trans htone⟩

/-! The end of a frame (R127, 46_external_interfaces.md R234, R237). -/

theorem frameEnd_requests (s : State) : (frameEnd s).requests =
    s.requests ++ [if 0 < s.st.toNat then .play s.config.audioFreqHz else .stop, .present] := by
  unfold frameEnd
  split <;> simp

theorem frameEnd_tone (s : State) : (frameEnd s).tone = decide (0 < s.st.toNat) := by
  unfold frameEnd
  split <;> simp [*]

theorem onlyChanges_setTone (b : Bool) (s : State) : OnlyChanges [.tone] s (setTone b s) := by
  intro p hp
  cases p <;> simp [Same] at *

theorem onlyChanges_frameEnd (s : State) : OnlyChanges [.requests, .tone] s (frameEnd s) := by
  have hreq (q : PortRequest) (t : State) : OnlyChanges [.requests, .tone] t (addRequest q t) :=
    (onlyChanges_addRequest q t).mono (by decide)
  have htone (b : Bool) (t : State) : OnlyChanges [.requests, .tone] t (setTone b t) :=
    (onlyChanges_setTone b t).mono (by decide)
  unfold frameEnd
  split <;> exact ((hreq _ s).trans (htone _ _)).trans (hreq _ _)

/-- The record that a frame has been started and is over (log 8). -/
theorem onlyChanges_frameRecord (a b : Bool) (s : State) :
    OnlyChanges [.frameStarted, .midFrame] s { s with frameStarted := a, midFrame := b } := by
  intro p hp
  cases p <;> simp only [Same, List.mem_cons, true_or, or_true, not_true_eq_false] at *
  all_goals intros; rfl

/-! The frame, by how its ticks end. -/

theorem runFrame_of_next {u s t : State} (hf : s.fault = none) (h : runTicks s.config.speed s = .next t) :
    runFrame u s = .done { frameEnd t with frameStarted := true, midFrame := false } := by
  simp only [runFrame, hf, h]

/-- A frame that reports a fault met it in one of its ticks. -/
theorem runFrame_reported_of_no_fault {u s w : State} {f : Fault} (hf : s.fault = none)
    (h : runFrame u s = .reported f w) :
    runTicks s.config.speed s = .fault f ∧ w = haltCore f u (lastState s.config.speed s) := by
  cases hrun : runTicks s.config.speed s with
  | next t =>
    rw [runFrame_of_next hf hrun] at h
    cases h
  | fault g =>
    rw [runFrame_of_fault hf hrun] at h
    cases h
    exact ⟨rfl, rfl⟩
  | refused r =>
    simp only [runFrame, hf, hrun] at h
    cases h

/-- Settles O48: completed ticks are followed by the frame's end; a fault leaves the core halted with what the completed
ticks kept. -/
theorem frameIsSpeedStepsThenAudioAndPresent : Obligations.FrameIsSpeedStepsThenAudioAndPresent := by
  unfold Obligations.FrameIsSpeedStepsThenAudioAndPresent
  intro u s hf
  rw [coreRun_eq_runTicks]
  constructor
  · intro t hrun
    obtain ⟨hconfig, -⟩ := runTicks_config_tone hrun
    refine ⟨_, runFrame_of_next hf hrun, ?_, frameEnd_tone t, rfl, rfl,
      (onlyChanges_frameEnd t).andThen (onlyChanges_frameRecord true false _)⟩
    rw [← hconfig]
    exact frameEnd_requests t
  · intro f hrun
    obtain ⟨k, -, hlast, -⟩ := lastState_of_fault hrun
    obtain ⟨hconfig, htone⟩ := runTicks_config_tone hlast
    exact ⟨_, runFrame_of_fault hf hrun, rfl, htone, hconfig⟩

/-- A call a faulting tick may have made is for a 1 bit of a row inside memory of the `Dxyn` it fetched (20_memory.md R79,
44_display.md R201). -/
theorem faultingCalls_are_row_bits {s v : State} {p : Nat × Nat} (hv : v = deliverKeys (currentInput s).keyPresses s)
    (h : p ∈ faultingCalls s) :
    ∃ (x y : RegIdx) (n : Fin 16) (row col : Nat), Fetches (.drw x y n) v ∧ row < n.val ∧
      dataAddr row v < memSize ∧ col < 8 ∧ (byteAt (dataAddr row v) v).getLsbD (7 - col) = true ∧
      p = ((readReg x v).toNat + col, (readReg y v).toNat + row) := by
  obtain ⟨x, y, n, hfetch, hp⟩ := mem_faultingCalls h
  rw [← hv] at hfetch hp
  obtain ⟨row, col, hrow, hcol, hbit, rfl⟩ := mem_spritePixels.1 hp
  rw [rowsInMemory_get] at hbit
  rw [rowsInMemory_length] at hrow
  have hrange : row < memSize - dataAddr 0 v := by omega
  refine ⟨x, y, n, row, col, hfetch, by omega, ?_, hcol, hbit, rfl⟩
  simp only [dataAddr] at hrange ⊢
  omega

/-- Settles O57: the halted core's requests are those of the last completed tick, then the calls of the faulting one. -/
theorem faultingFrameMakesNoAudioAndNoPresentRequest : Obligations.FaultingFrameMakesNoAudioAndNoPresentRequest := by
  unfold Obligations.FaultingFrameMakesNoAudioAndNoPresentRequest
  intro u s w f hf h
  obtain ⟨hrun, rfl⟩ := runFrame_reported_of_no_fault hf h
  obtain ⟨k, hk, hlast, hfault⟩ := lastState_of_fault hrun
  refine ⟨k, _, _, callsMade u (lastState s.config.speed s), hk, (coreRun_eq_runTicks k s).trans hlast, hfault, rfl, rfl,
    fun q hq => ?_, rfl⟩
  obtain ⟨p, hp, rfl⟩ := mem_callsMade hq
  obtain ⟨x, y, n, row, col, hfetch, hrow, hrange, hcol, hbit, rfl⟩ := faultingCalls_are_row_bits rfl hp
  exact ⟨x, y, n, row, col, hfetch, hrow, hrange, hcol, hbit, rfl⟩

/-! The first arrival (R130; log 15). -/

/-- From `s` the core is in `t` after `k` ticks, has arrived at the idle loop at `a` there and nowhere before. -/
def FirstArrival (a : Word) (k : Nat) (s t : State) : Prop :=
  runTicks k s = .next t ∧ arrivedAt a t = true ∧
    ∀ (j : Nat) (u : State), j < k → runTicks j s = .next u → ¬ arrivedAt a u = true

section

variable {a : Word} {k n : Nat} {s t : State}

theorem firstArrival_zero : FirstArrival a 0 s t ↔ s = t ∧ arrivedAt a s = true := by
  constructor
  · rintro ⟨⟨⟩, harrived, -⟩
    exact ⟨rfl, harrived⟩
  · rintro ⟨rfl, harrived⟩
    exact ⟨rfl, harrived, fun j _ hj => absurd hj j.not_lt_zero⟩

theorem firstArrival_succ : FirstArrival a (k + 1) s t ↔
    ¬ arrivedAt a s = true ∧ ∃ m, step s = .next m ∧ FirstArrival a k m t := by
  constructor
  · rintro ⟨hrun, harrived, hfirst⟩
    obtain ⟨m, hm, hrun⟩ := runTicks_succ_eq_next.1 hrun
    exact ⟨hfirst 0 s k.succ_pos rfl, m, hm, hrun, harrived, fun j u hj hu =>
      hfirst (j + 1) u (Nat.succ_lt_succ hj) (runTicks_succ_eq_next.2 ⟨m, hm, hu⟩)⟩
  · rintro ⟨hs, m, hm, hrun, harrived, hfirst⟩
    refine ⟨runTicks_succ_eq_next.2 ⟨m, hm, hrun⟩, harrived, fun j u hj hu => ?_⟩
    cases j with
    | zero =>
      cases hu
      exact hs
    | succ j =>
      rw [runTicks_of_next hm] at hu
      exact hfirst j u (Nat.lt_of_succ_lt_succ hj) hu

theorem resultState_succ_of_not_arrived (h : ¬ arrivedAt a s = true) :
    resultState a (n + 1) s = some t ↔ ∃ m, step s = .next m ∧ resultState a n m = some t := by
  cases hs : step s <;> simp [resultState, h, hs]

/-- A core that has arrived is at its own first arrival. -/
theorem exists_firstArrival_of_arrived (h : arrivedAt a s = true) :
    (∃ k, k ≤ n ∧ FirstArrival a k s t) ↔ s = t := by
  constructor
  · rintro ⟨_ | k, -, hk⟩
    · exact (firstArrival_zero.1 hk).1
    · exact absurd h (firstArrival_succ.1 hk).1
  · rintro rfl
    exact ⟨0, n.zero_le, firstArrival_zero.2 ⟨rfl, h⟩⟩

/-- A core that has not arrived is a tick further from its first arrival than the next state is. -/
theorem exists_firstArrival_of_not_arrived (h : ¬ arrivedAt a s = true) :
    (∃ k, k ≤ n + 1 ∧ FirstArrival a k s t) ↔ ∃ m, step s = .next m ∧ ∃ k, k ≤ n ∧ FirstArrival a k m t := by
  constructor
  · rintro ⟨_ | k, hkn, hk⟩
    · exact absurd (firstArrival_zero.1 hk).2 h
    · obtain ⟨-, m, hm, hk⟩ := firstArrival_succ.1 hk
      exact ⟨m, hm, k, Nat.le_of_succ_le_succ hkn, hk⟩
  · rintro ⟨m, hm, k, hkn, hk⟩
    exact ⟨k + 1, Nat.succ_le_succ hkn, firstArrival_succ.2 ⟨h, m, hm, hk⟩⟩

/-- The search of `resultState` ends at the first arrival within its ticks. -/
theorem resultState_eq_some_iff : resultState a n s = some t ↔ ∃ k, k ≤ n ∧ FirstArrival a k s t := by
  induction n generalizing s with
  | zero =>
    simp only [Nat.le_zero, exists_eq_left, firstArrival_zero]
    simp [resultState, and_comm]
  | succ n ih =>
    by_cases h : arrivedAt a s = true
    · rw [resultState_of_arrived h, exists_firstArrival_of_arrived h, Option.some_inj]
    · rw [resultState_succ_of_not_arrived h, exists_firstArrival_of_not_arrived h]
      simp only [ih]

end

/-- Settles O60: the recursive search and the first arrival, said with the host's run and the run state spelled out. -/
theorem resultIsReadAtTheFirstArrival : Obligations.ResultIsReadAtTheFirstArrival := by
  unfold Obligations.ResultIsReadAtTheFirstArrival
  intro a n s t
  rw [resultState_eq_some_iff]
  simp only [FirstArrival, arrivedAt_iff, coreRun_eq_runTicks]
  refine exists_congr fun k => and_congr_right fun _ => ⟨?_, ?_⟩
  · rintro ⟨hrun, ⟨hrunning, hpc⟩, hfirst⟩
    exact ⟨hrun, hpc, hrunning, hfirst⟩
  · rintro ⟨hrun, hpc, hrunning, hfirst⟩
    exact ⟨hrun, ⟨hrunning, hpc⟩, hfirst⟩

end Sys2Proof.Machine
end

section
/-! PROOFS. Control flow (41_control_flow.md R140 to R147): jumps and their targets, return, call and the skips. -/

namespace Sys2Proof.Machine

/-- The row's match and mask columns (30_encoding.md R97), as the obligations write them. -/
theorem spelledAs_rowOf (i : Instr) : SpelledAs i (rowOf i).pattern (rowOf i).mask := encode_selects_rowOf i

/-! Jump targets (R141, R143). -/

theorem zext16_toNat (nnn : Addr12) : (zext16 nnn).toNat = nnn.toNat :=
  BitVec.toNat_setWidth_of_le (by decide)

/-- The largest sum, 0x10FE, is below 2^16, so masking it to 16 bits changes nothing (R143). -/
theorem jumpSum_toNat (nnn : Addr12) (b : Byte) : (jumpSum nnn b).toNat = nnn.toNat + b.toNat := by
  have hnnn := nnn.isLt
  have hb := b.isLt
  rw [jumpSum, BitVec.toNat_ofNat, Nat.mod_eq_of_lt (by omega)]

/-- No fetch completes where `pc` leaves no room for two bytes (20_memory.md R66, R68). -/
theorem fetchWord_of_ge_last {s : State} (h : 0xFFF ≤ s.pc.toNat) :
    fetchWord s = .error (.outOfRange (max s.pc.toNat 0x1000)) :=
  fetchWord_fault (Nat.succ_le_succ h)

/-- A jump to the instruction's own address undoes the pre-increment, and that is all it does. -/
theorem exec_jp_advancePc_self {nnn : Addr12} {s : State} (h : s.pc.toNat = nnn.toNat) :
    exec (.jp nnn) (advancePc s) = .next s := by
  have htarget : zext16 nnn = s.pc := BitVec.eq_of_toNat_eq ((zext16_toNat nnn).trans h.symm)
  calc exec (.jp nnn) (advancePc s)
      = .next (setPc (zext16 nnn) (advancePc s)) := rfl
    _ = .next (setPc s.pc (advancePc s)) := by rw [htarget]
    _ = .next s := rfl

/-- Settles O21: the execute phase gives the state before the fetch back, so the end of the tick is the whole step. -/
theorem jumpToItselfChangesTheTimersAlone : Obligations.JumpToItselfChangesTheTimersAlone := by
  unfold Obligations.JumpToItselfChangesTheTimersAlone
  intro nnn s hr hf hpc
  have hstep : step s = .next (closeTick (timerStep s)) := by
    rw [step_of_running hr, instructionStep_of_fetches hf, exec_jp_advancePc_self hpc, thenNext_next]
  exact ⟨_, hstep, decTimer_toNat s.dt, decTimer_toNat s.st, hf.congr rfl rfl rfl, onlyChanges_endTick s⟩

/-- Settles O20: each target is a value of `pc` that nothing reduces, and the fetch alone checks it. -/
theorem jumpsSetPc : Obligations.JumpsSetPc := by
  unfold Obligations.JumpsSetPc
  refine fun nnn s => ⟨spelledAs_rowOf (.jp nnn), spelledAs_rowOf (.jpV0 nnn),
    ⟨_, rfl, zext16_toNat nnn, onlyChanges_setPc _ s, fun h => ?_⟩,
    ⟨_, rfl, jumpSum_toNat nnn _, onlyChanges_setPc _ s, fetchWord_of_ge_last⟩⟩
  rw [fetchWord_of_ge_last h.ge, h]
  rfl

/-! Return and call (R140, R142). -/

theorem exec_ret_of_nil {s : State} (h : s.stack = []) : exec .ret s = .fault .stackUnderflow := by
  simp only [exec, execRet, h, raise_eq]

theorem exec_call_of_room {nnn : Addr12} {s : State} (h : s.config.stackDepth ≠ some s.stack.length) :
    exec (.call nnn) s = .next (setPc (zext16 nnn) (setStack (s.pc :: s.stack) s)) :=
  if_neg (mt (stackFull_iff s).1 h)

theorem exec_call_of_full {nnn : Addr12} {s : State} (h : s.config.stackDepth = some s.stack.length) :
    exec (.call nnn) s = .fault .stackOverflow :=
  if_pos ((stackFull_iff s).2 h)

/-- Settles O19: one case for each shape of the stack. -/
theorem returnPopsTheStackIntoPc : Obligations.ReturnPopsTheStackIntoPc := by
  unfold Obligations.ReturnPopsTheStackIntoPc
  exact ⟨spelledAs_rowOf .ret, fun s => ⟨exec_ret_of_nil, fun a rest h =>
    ⟨_, exec_ret_of_cons h, rfl, rfl, (onlyChanges_setStack rest s).andThen (onlyChanges_setPc a _)⟩⟩⟩

/-- Settles O22: one case for each answer of the depth test. -/
theorem callPushesTheReturnAddress : Obligations.CallPushesTheReturnAddress := by
  unfold Obligations.CallPushesTheReturnAddress
  exact fun nnn s => ⟨spelledAs_rowOf (.call nnn), fun hroom =>
    ⟨_, exec_call_of_room hroom, zext16_toNat nnn, rfl, (onlyChanges_setStack _ s).andThen (onlyChanges_setPc _ _)⟩,
    exec_call_of_full⟩

/-! Skips (R144 to R147). -/

theorem skipIf_beq_pc (a b : Byte) (s : State) :
    (skipIf (a == b) s).pc = if a.toNat = b.toNat then s.pc + 2 else s.pc := by
  simp [BitVec.toNat_inj]

theorem skipIf_bne_pc (a b : Byte) (s : State) :
    (skipIf (a != b) s).pc = if a.toNat = b.toNat then s.pc else s.pc + 2 := by
  simp [BitVec.toNat_inj]

/-- Settles O24: the two skips test the register against `kk` for equality and for difference. -/
theorem immediateSkips : Obligations.ImmediateSkips := by
  unfold Obligations.ImmediateSkips
  exact fun x kk s => ⟨spelledAs_rowOf (.seImm x kk), spelledAs_rowOf (.sneImm x kk),
    ⟨_, rfl, skipIf_beq_pc (readReg x s) kk s, onlyChanges_skipIf _ s⟩,
    ⟨_, rfl, skipIf_bne_pc (readReg x s) kk s, onlyChanges_skipIf _ s⟩⟩

/-- Settles O25: the same two tests, of one register against another. -/
theorem registerSkips : Obligations.RegisterSkips := by
  unfold Obligations.RegisterSkips
  exact fun x y s => ⟨spelledAs_rowOf (.seReg x y), spelledAs_rowOf (.sneReg x y),
    ⟨_, rfl, skipIf_beq_pc (readReg x s) (readReg y s) s, onlyChanges_skipIf _ s⟩,
    ⟨_, rfl, skipIf_bne_pc (readReg x s) (readReg y s) s, onlyChanges_skipIf _ s⟩⟩

end Sys2Proof.Machine
end

section
/-! PROOFS. Load, arithmetic, logic, shift and random (42_load_alu.md R160 to R177): the flag values and results as
numbers, and what a register reads as after a flag and a destination are written in turn (decision D7). -/

namespace Sys2Proof.Machine

/-! The flag values (R175) and the results as numbers. -/

theorem flagByte_toNat (p : Prop) [Decidable p] : (flagByte (decide p)).toNat = if p then 1 else 0 := by
  by_cases h : p <;> simp [flagByte, h]

theorem carryFlag_toNat (a b : Byte) : (carryFlag a b).toNat = if 255 < a.toNat + b.toNat then 1 else 0 :=
  flagByte_toNat _

theorem greaterFlag_toNat (a b : Byte) : (greaterFlag a b).toNat = if b.toNat < a.toNat then 1 else 0 :=
  flagByte_toNat _

theorem lowBitFlag_toNat (a : Byte) : (lowBitFlag a).toNat = a.toNat % 2 := by
  rw [lowBitFlag, BitVec.toNat_and]
  exact Nat.and_one_is_mod _

theorem shiftRight_one_toNat (a : Byte) : (a >>> 1).toNat = a.toNat / 2 := by
  rw [BitVec.toNat_ushiftRight, Nat.shiftRight_eq_div_pow, pow_one]

theorem shiftLeft_one_toNat (a : Byte) : (a <<< 1).toNat = 2 * a.toNat % 256 := by
  rw [BitVec.toNat_shiftLeft, Nat.shiftLeft_eq, pow_one, Nat.mul_comm]

/-- Bit 7 is all that a shift by 7 leaves, so the mask changes nothing. -/
theorem highBitFlag_toNat (a : Byte) : (highBitFlag a).toNat = a.toNat / 128 := by
  have ha := a.isLt
  have hmask : (highBitFlag a).toNat = a.toNat / 128 % 2 := by
    rw [highBitFlag, BitVec.toNat_and, BitVec.toNat_ushiftRight, Nat.shiftRight_eq_div_pow]
    exact Nat.and_one_is_mod _
  omega

theorem byte_sub_toNat (a b : Byte) : (a - b).toNat = (256 + a.toNat - b.toNat) % 256 := by
  have hb := b.isLt
  rw [BitVec.toNat_sub]
  congr 1
  omega

/-! Register reads after the flag is written, and after the destination too (R176, R177). -/

theorem readReg_flag_writeFlag (c : Byte) (s : State) : readReg flagReg (writeFlag c s) = c :=
  readReg_writeReg_same flagReg c s

theorem readReg_writeFlag_of_ne {r : RegIdx} (hr : r ≠ flagReg) (c : Byte) (s : State) :
    readReg r (writeFlag c s) = readReg r s :=
  readReg_writeReg_ne flagReg r c s hr

/-- A destination other than `VF` leaves the flag as it was written. -/
theorem readReg_flag_writeReg_writeFlag {x : RegIdx} (hx : x ≠ flagReg) (b c : Byte) (s : State) :
    readReg flagReg (writeReg x b (writeFlag c s)) = c := by
  rw [readReg_writeReg_ne x flagReg b _ hx.symm, readReg_flag_writeFlag]

/-! The loads and the operations without a flag (R160 to R165). -/

/-- Settles O26: the destination reads as the byte written. -/
theorem loadsAndImmediateAdd : Obligations.LoadsAndImmediateAdd := by
  unfold Obligations.LoadsAndImmediateAdd
  refine fun x y kk s => ⟨spelledAs_rowOf (.ldImm x kk), spelledAs_rowOf (.addImm x kk), spelledAs_rowOf (.ldReg x y),
    ⟨_, rfl, readReg_writeReg_same x kk s, regsKeptBut_writeReg x _ s, onlyChanges_writeReg x _ s⟩,
    ⟨_, rfl, ?_, regsKeptBut_writeReg x _ s, onlyChanges_writeReg x _ s⟩,
    ⟨_, rfl, readReg_writeReg_same x _ s, regsKeptBut_writeReg x _ s, onlyChanges_writeReg x _ s⟩⟩
  rw [readReg_writeReg_same]
  exact BitVec.toNat_add _ _

/-- Settles O27: the destination reads as the byte written, whose bits are the library's facts. -/
theorem bitwiseOperations : Obligations.BitwiseOperations := by
  unfold Obligations.BitwiseOperations
  refine fun x y s => ⟨spelledAs_rowOf (.orReg x y), spelledAs_rowOf (.andReg x y), spelledAs_rowOf (.xorReg x y),
    ⟨_, rfl, regsKeptBut_writeReg x _ s, onlyChanges_writeReg x _ s, fun k _ => ?_⟩,
    ⟨_, rfl, regsKeptBut_writeReg x _ s, onlyChanges_writeReg x _ s, fun k _ => ?_⟩,
    ⟨_, rfl, regsKeptBut_writeReg x _ s, onlyChanges_writeReg x _ s, fun k _ => ?_⟩⟩
  · rw [readReg_writeReg_same, BitVec.getLsbD_or]
  · rw [readReg_writeReg_same, BitVec.getLsbD_and]
  · rw [readReg_writeReg_same, BitVec.getLsbD_xor]

/-! Sum and differences (R166, R167, R169). -/

/-- Settles O28: both operands are read before the flag is written, so aliasing does not touch the sum. -/
theorem addWritesSumAndCarry : Obligations.AddWritesSumAndCarry := by
  unfold Obligations.AddWritesSumAndCarry
  refine fun x y s => ⟨spelledAs_rowOf (.addReg x y), _, rfl, ?_, fun hx => ?_,
    regsKeptBut_writeReg_writeFlag x _ _ s, onlyChanges_writeReg_writeFlag x _ _ s⟩
  · rw [readReg_writeReg_same]
    exact BitVec.toNat_add _ _
  · rw [readReg_flag_writeReg_writeFlag hx, carryFlag_toNat]

/-- What `8xy5` and `8xy7` share: the flag of `V[p] > V[q]`, then `V[x] := V[p] - V[q]` as the flag write left them. -/
def writeDifference (x p q : RegIdx) (s : State) : State :=
  let s1 := writeFlag (greaterFlag (readReg p s) (readReg q s)) s
  writeReg x (readReg p s1 - readReg q s1) s1

theorem exec_subReg (x y : RegIdx) (s : State) : exec (.subReg x y) s = .next (writeDifference x x y s) := rfl

theorem exec_subnReg (x y : RegIdx) (s : State) : exec (.subnReg x y) s = .next (writeDifference x y x s) := rfl

theorem regsKeptBut_writeDifference (x p q : RegIdx) (s : State) :
    RegsKeptBut [x, flagReg] s (writeDifference x p q s) :=
  regsKeptBut_writeReg_writeFlag x _ _ s

theorem onlyChanges_writeDifference (x p q : RegIdx) (s : State) : OnlyChanges [.v] s (writeDifference x p q s) :=
  onlyChanges_writeReg_writeFlag x _ _ s

section

variable {x p q : RegIdx}

theorem flag_writeDifference (hx : x ≠ flagReg) (s : State) :
    (readReg flagReg (writeDifference x p q s)).toNat = if (readReg q s).toNat < (readReg p s).toNat then 1 else 0 := by
  rw [writeDifference, readReg_flag_writeReg_writeFlag hx, greaterFlag_toNat]

/-- The difference is of the operands as the flag write left them; the lemmas below say what these are. -/
theorem readReg_writeDifference (x p q : RegIdx) (s : State) :
    (readReg x (writeDifference x p q s)).toNat =
      (256 + (readReg p (writeFlag (greaterFlag (readReg p s) (readReg q s)) s)).toNat -
        (readReg q (writeFlag (greaterFlag (readReg p s) (readReg q s)) s)).toNat) % 256 := by
  rw [writeDifference, readReg_writeReg_same, byte_sub_toNat]

theorem writeDifference_of_ne (hp : p ≠ flagReg) (hq : q ≠ flagReg) (s : State) :
    (readReg x (writeDifference x p q s)).toNat = (256 + (readReg p s).toNat - (readReg q s).toNat) % 256 := by
  rw [readReg_writeDifference, readReg_writeFlag_of_ne hp, readReg_writeFlag_of_ne hq]

theorem writeDifference_of_flag_subtrahend (hp : p ≠ flagReg) (hq : q = flagReg) (s : State) :
    (readReg x (writeDifference x p q s)).toNat =
      (256 + (readReg p s).toNat - (if (readReg q s).toNat < (readReg p s).toNat then 1 else 0)) % 256 := by
  subst hq
  rw [readReg_writeDifference, readReg_writeFlag_of_ne hp, readReg_flag_writeFlag, greaterFlag_toNat]

theorem writeDifference_of_flag_minuend (hp : p = flagReg) (hq : q ≠ flagReg) (s : State) :
    (readReg x (writeDifference x p q s)).toNat =
      (256 + (if (readReg q s).toNat < (readReg p s).toNat then 1 else 0) - (readReg q s).toNat) % 256 := by
  subst hp
  rw [readReg_writeDifference, readReg_writeFlag_of_ne hq, readReg_flag_writeFlag, greaterFlag_toNat]

end

theorem writeDifference_self (x p : RegIdx) (s : State) : readReg x (writeDifference x p p s) = 0#8 := by
  rw [writeDifference, readReg_writeReg_same, BitVec.sub_self]

/-- Settles O29: the minuend is the destination, so `x = F` makes it the flag and `y = F` the subtrahend. -/
theorem subtractWritesDifferenceAndFlag : Obligations.SubtractWritesDifferenceAndFlag := by
  unfold Obligations.SubtractWritesDifferenceAndFlag
  refine fun x y s => ⟨spelledAs_rowOf (.subReg x y), _, exec_subReg x y s,
    fun hx hy => ⟨writeDifference_of_ne hx hy s, flag_writeDifference hx s⟩,
    fun hx hy => ⟨writeDifference_of_flag_subtrahend hx hy s, flag_writeDifference hx s⟩,
    fun hx hy => ?_, fun hx hy => ?_, regsKeptBut_writeDifference x x y s, onlyChanges_writeDifference x x y s⟩
  · subst hx
    exact writeDifference_of_flag_minuend rfl hy s
  · subst hx hy
    exact writeDifference_self flagReg flagReg s

/-- Settles O31: the same four cases with minuend and subtrahend exchanged. -/
theorem reverseSubtractWritesDifferenceAndFlag : Obligations.ReverseSubtractWritesDifferenceAndFlag := by
  unfold Obligations.ReverseSubtractWritesDifferenceAndFlag
  refine fun x y s => ⟨spelledAs_rowOf (.subnReg x y), _, exec_subnReg x y s,
    fun hx hy => ⟨writeDifference_of_ne hy hx s, flag_writeDifference hx s⟩,
    fun hx hy => ⟨writeDifference_of_flag_minuend hy hx s, flag_writeDifference hx s⟩,
    fun hx hy => ?_, fun hx hy => ?_, regsKeptBut_writeDifference x y x s, onlyChanges_writeDifference x y x s⟩
  · subst hx
    exact writeDifference_of_flag_subtrahend hy rfl s
  · subst hx hy
    exact writeDifference_self flagReg flagReg s

/-! Shifts (R168, R170): the register shifted is the one the flag write may have replaced. -/

/-- Settles O30: with `VF` as destination the bit shifted is the flag's own, and 0 or 1 halves to 0. -/
theorem shiftRightWritesHalfAndLowBit : Obligations.ShiftRightWritesHalfAndLowBit := by
  unfold Obligations.ShiftRightWritesHalfAndLowBit
  refine fun x y s => ⟨spelledAs_rowOf (.shr x y), _, rfl, fun hx => ⟨?_, ?_⟩, fun hx => ?_,
    regsKeptBut_writeReg_writeFlag x _ _ s, onlyChanges_writeReg_writeFlag x _ _ s⟩
  · rw [readReg_writeReg_same, readReg_writeFlag_of_ne hx, shiftRight_one_toNat]
  · rw [readReg_flag_writeReg_writeFlag hx, lowBitFlag_toNat]
  · subst hx
    apply BitVec.eq_of_toNat_eq
    rw [readReg_writeReg_same, readReg_flag_writeFlag, shiftRight_one_toNat, lowBitFlag_toNat]
    exact Nat.div_eq_of_lt (Nat.mod_lt _ (by decide))

/-- Settles O32: with `VF` as destination the flag itself is doubled. -/
theorem shiftLeftWritesDoubleAndHighBit : Obligations.ShiftLeftWritesDoubleAndHighBit := by
  unfold Obligations.ShiftLeftWritesDoubleAndHighBit
  refine fun x y s => ⟨spelledAs_rowOf (.shl x y), _, rfl, fun hx => ⟨?_, ?_⟩, fun hx => ?_,
    regsKeptBut_writeReg_writeFlag x _ _ s, onlyChanges_writeReg_writeFlag x _ _ s⟩
  · rw [readReg_writeReg_same, readReg_writeFlag_of_ne hx, shiftLeft_one_toNat]
  · rw [readReg_flag_writeReg_writeFlag hx, highBitFlag_toNat]
  · subst hx
    have hlt := (readReg flagReg s).isLt
    rw [readReg_writeReg_same, readReg_flag_writeFlag, shiftLeft_one_toNat, highBitFlag_toNat]
    split <;> omega

/-! The random byte (R171). -/

/-- Settles O33: the destination reads as the byte of the tick's input, masked; the draw is the one request added. -/
theorem randomByteIsMasked : Obligations.RandomByteIsMasked := by
  unfold Obligations.RandomByteIsMasked
  refine fun x kk s => ⟨spelledAs_rowOf (.rnd x kk), _, rfl, fun k _ => ?_, ?_, rfl, regsKeptBut_writeReg x _ _,
    (onlyChanges_addRequest _ s).andThen (onlyChanges_writeReg x _ _)⟩
  · rw [readReg_writeReg_same, BitVec.getLsbD_and]
    rfl
  · rw [readReg_writeReg_same, BitVec.and_assoc, BitVec.and_not_self]
    exact BitVec.and_zero

end Sys2Proof.Machine
end

section
/-! PROOFS. Index register and memory (43_index_memory.md R180 to R186): the sums `I` takes, and a block inside memory
against one that leaves it (20_memory.md R69, R79; decision D28). -/

namespace Sys2Proof.Machine

/-! What `I` takes (R181, R182). -/

theorem indexSum_toNat (a : Word) (b : Byte) : (indexSum a b).toNat = (a.toNat + b.toNat) % 65536 :=
  BitVec.toNat_ofNat _ _

/-- The largest product, 5 * 255, is below 2^16, so masking it to 16 bits changes nothing. -/
theorem glyphAddr_toNat (b : Byte) : (glyphAddr b).toNat = 5 * b.toNat := by
  have hb := b.isLt
  rw [glyphAddr, BitVec.toNat_ofNat, Nat.mod_eq_of_lt (by omega), Nat.mul_comm]

/-- Settles O34: both values fit the 16 bits of `I`. -/
theorem indexLoads : Obligations.IndexLoads := by
  unfold Obligations.IndexLoads
  exact fun nnn x s => ⟨spelledAs_rowOf (.ldI nnn), spelledAs_rowOf (.ldF x),
    ⟨_, rfl, zext16_toNat nnn, onlyChanges_setI _ s⟩, ⟨_, rfl, glyphAddr_toNat _, onlyChanges_setI _ s⟩⟩

/-- Settles O35: the sum is masked, and the write of `I` is the only write. -/
theorem indexAddWraps : Obligations.IndexAddWraps := by
  unfold Obligations.IndexAddWraps
  exact fun x s => ⟨spelledAs_rowOf (.addI x), _, rfl, indexSum_toNat s.i _, onlyChanges_setI _ s⟩

/-! Block accesses that complete. -/

theorem memWriteBytes_completes {bs : List Byte} {a : Nat} (s : State) (h : a + bs.length ≤ memSize) :
    ∃ t, memWriteBytes a bs s = .ok t := by
  obtain ⟨m, hm, -⟩ := memWriteBytes_ok bs a s h
  exact ⟨_, hm⟩

theorem memReadBytes_in_range {a n : Nat} {s : State} {bs : List Byte} (h : memReadBytes a n s = .ok bs)
    (hn : 0 < n) : a + n ≤ memSize := by
  by_contra hr
  rw [memReadBytes_fault n a s (by omega) hn] at h
  cases h

/-- The k-th byte read is the one at the k-th address of the block. -/
theorem memReadBytes_getElem {a n k : Nat} {s : State} {bs : List Byte} (h : memReadBytes a n s = .ok bs)
    (hk : k < bs.length) : bs[k] = byteAt (a + k) s := by
  have hlen := memReadBytes_length h
  obtain rfl := Except.ok.inj ((memReadBytes_ok n a s (memReadBytes_in_range h (by omega))).symm.trans h)
  simp

/-! `Fx33` (R183). -/

theorem exec_ldB_next {x : RegIdx} {s t : State} (h : exec (.ldB x) s = .next t) :
    memWriteBytes (dataAddr 0 s) (bcdDigits (readReg x s)) s = .ok t := by
  obtain ⟨u, hu, ht⟩ := orRaise_eq_next.1 h
  rw [hu, Host.Outcome.next.inj ht]

theorem exec_ldB_of_in_range {x : RegIdx} {s : State} (h : dataAddr 2 s < memSize) :
    ∃ t, exec (.ldB x) s = .next t := by
  obtain ⟨t, ht⟩ := memWriteBytes_completes (bs := bcdDigits (readReg x s)) (a := dataAddr 0 s) s h
  exact ⟨t, orRaise_eq_next.2 ⟨t, ht, rfl⟩⟩

theorem exec_ldB_of_out_of_range {x : RegIdx} {s : State} (h : memSize ≤ dataAddr 2 s) :
    exec (.ldB x) s = .fault (.outOfRange (max s.i.toNat memSize)) := by
  have hfault := memWriteBytes_fault (bcdDigits (readReg x s)) (dataAddr 0 s) s (Nat.lt_succ_of_le h)
    (List.cons_ne_nil _ _)
  rw [exec, execLdB, hfault]
  rfl

/-- After a completed `Fx33` the address `I + k` holds the k-th digit. -/
theorem byteAt_exec_ldB {x : RegIdx} {s t : State} (h : exec (.ldB x) s = .next t) {k : Nat} (hk : k < 3) :
    byteAt (dataAddr k s) t = (bcdDigits (readReg x s))[k]'hk :=
  byteAt_memWriteBytes_inside (exec_ldB_next h) hk

/-- The three stored bytes as numbers: each digit is below 256, so none is reduced as it becomes a byte. -/
theorem byteAt_exec_ldB_toNat {x : RegIdx} {s t : State} (h : exec (.ldB x) s = .next t) :
    (byteAt (dataAddr 0 s) t).toNat = (readReg x s).toNat / 100 ∧
    (byteAt (dataAddr 1 s) t).toNat = (readReg x s).toNat / 10 % 10 ∧
    (byteAt (dataAddr 2 s) t).toNat = (readReg x s).toNat % 10 := by
  have hvalue := (readReg x s).isLt
  rw [byteAt_exec_ldB h (by decide : 0 < 3), byteAt_exec_ldB h (by decide : 1 < 3),
    byteAt_exec_ldB h (by decide : 2 < 3)]
  simp only [bcdDigits, List.getElem_cons_zero, List.getElem_cons_succ, BitVec.toNat_ofNat]
  omega

/-- Settles O36: the digits make up the value, and the block ends at `I + 2`. -/
theorem bcdStoresThreeDigits : Obligations.BcdStoresThreeDigits := by
  unfold Obligations.BcdStoresThreeDigits
  refine fun x s => ⟨spelledAs_rowOf (.ldB x), fun hin => ?_, exec_ldB_of_out_of_range⟩
  obtain ⟨t, ht⟩ := exec_ldB_of_in_range (x := x) hin
  obtain ⟨hhundreds, htens, hones⟩ := byteAt_exec_ldB_toNat ht
  have hvalue := (readReg x s).isLt
  refine ⟨t, ht, by omega, by omega, by omega, by omega, fun a ha => ?_, exec_onlyChanges (.ldB x) s t ht⟩
  exact exec_byteAt_kept (.ldB x) s t ht a (by simp only [Stores]; omega)

/-! `Fx55` (R184), beside the facts of a completed one above. -/

theorem exec_stRegs_of_in_range {x : RegIdx} {s : State} (h : dataAddr x.val s < memSize) :
    ∃ t, exec (.stRegs x) s = .next t := by
  have hend : dataAddr 0 s + (regsUpTo x s).length ≤ memSize := by rw [regsUpTo_length]; exact h
  obtain ⟨t, ht⟩ := memWriteBytes_completes s hend
  exact ⟨t, orRaise_eq_next.2 ⟨t, ht, rfl⟩⟩

theorem exec_stRegs_of_out_of_range {x : RegIdx} {s : State} (h : memSize ≤ dataAddr x.val s) :
    exec (.stRegs x) s = .fault (.outOfRange (max s.i.toNat memSize)) := by
  have hlen := regsUpTo_length x s
  have hend : memSize < dataAddr 0 s + (regsUpTo x s).length := by rw [hlen]; exact Nat.lt_succ_of_le h
  have hne : regsUpTo x s ≠ [] := List.ne_nil_of_length_pos (by omega)
  rw [exec, execStRegs, memWriteBytes_fault _ _ s hend hne]
  rfl

/-- Settles O37: the block ends at `I + x`, and the stores are the only writes. -/
theorem registerBlockIsStored : Obligations.RegisterBlockIsStored := by
  unfold Obligations.RegisterBlockIsStored
  refine fun x s => ⟨spelledAs_rowOf (.stRegs x), fun hin => ?_, exec_stRegs_of_out_of_range⟩
  obtain ⟨t, ht⟩ := exec_stRegs_of_in_range hin
  refine ⟨t, ht, byteAt_exec_stRegs ht, fun a ha => ?_, exec_onlyChanges (.stRegs x) s t ht⟩
  exact exec_byteAt_kept (.stRegs x) s t ht a (by simp only [Stores]; omega)

/-! `Fx65` (R185). -/

theorem exec_ldRegs_next {x : RegIdx} {s t : State} (h : exec (.ldRegs x) s = .next t) :
    ∃ bs, memReadBytes (dataAddr 0 s) (x.val + 1) s = .ok bs ∧ writeRegs 0 bs s = t := by
  obtain ⟨bs, hbs, ht⟩ := orRaise_eq_next.1 h
  exact ⟨bs, hbs, Host.Outcome.next.inj ht⟩

theorem exec_ldRegs_of_in_range {x : RegIdx} {s : State} (h : dataAddr x.val s < memSize) :
    ∃ t, exec (.ldRegs x) s = .next t :=
  ⟨_, orRaise_eq_next.2 ⟨_, memReadBytes_ok (x.val + 1) (dataAddr 0 s) s h, rfl⟩⟩

theorem exec_ldRegs_of_out_of_range {x : RegIdx} {s : State} (h : memSize ≤ dataAddr x.val s) :
    exec (.ldRegs x) s = .fault (.outOfRange (max s.i.toNat memSize)) := by
  rw [exec, execLdRegs, memReadBytes_fault _ (dataAddr 0 s) s (Nat.lt_succ_of_le h) (Nat.succ_pos _)]
  rfl

/-- After a completed `Fx65` register `k` holds the byte at `I + k`. -/
theorem readReg_exec_ldRegs {x : RegIdx} {s t : State} (h : exec (.ldRegs x) s = .next t) (k : RegIdx)
    (hk : k.val ≤ x.val) : readReg k t = byteAt (dataAddr k.val s) s := by
  obtain ⟨bs, hbs, rfl⟩ := exec_ldRegs_next h
  have hlen : k.val < bs.length := by rw [memReadBytes_length hbs]; omega
  have hread : readReg k (writeRegs 0 bs s) = bs[k.val] := by simp [readReg_writeRegs, hlen]
  exact hread.trans (memReadBytes_getElem hbs hlen)

/-- Settles O38: the block ends at `I + x`, and the registers above `x` are not among those written. -/
theorem registerBlockIsLoaded : Obligations.RegisterBlockIsLoaded := by
  unfold Obligations.RegisterBlockIsLoaded
  refine fun x s => ⟨spelledAs_rowOf (.ldRegs x), fun hin => ?_, exec_ldRegs_of_out_of_range⟩
  obtain ⟨t, ht⟩ := exec_ldRegs_of_in_range hin
  refine ⟨t, ht, readReg_exec_ldRegs ht, fun k hk => ?_, exec_onlyChanges (.ldRegs x) s t ht⟩
  exact exec_regsKeptBut (.ldRegs x) s t ht k (by simpa [regsWritten] using hk)

end Sys2Proof.Machine
end

section
/-! PROOFS. Display (44_display.md R200 to R204): the clear; what one draw does to every pixel, to `VF` and to the request
record; draws at coordinates that wrap alike; the second draw. -/

namespace Sys2Proof.Machine

/-- Settles O40: the clear is the one request, and it turns every pixel off. -/
theorem clearBlanksTheDisplay : Obligations.ClearBlanksTheDisplay := by
  unfold Obligations.ClearBlanksTheDisplay
  exact ⟨spelledAs_rowOf .cls, fun s => ⟨_, rfl, fun c r => pixelAt_displayClear c r s, rfl, onlyChanges_displayClear s⟩⟩

/-! When a draw completes, and the state it leaves (R201). -/

/-- The state a completed draw of `n` rows at (vx, vy) leaves. -/
def drawSprite (vx vy n : Nat) (s : State) : State :=
  let r := setPixels (spritePixels vx vy (spriteRows n s)) s
  writeFlag (flagByte r.1) r.2

/-- The rows of a draw are none or inside memory. -/
def RowsInRange (n : Nat) (s : State) : Prop := n = 0 ∨ dataAddr n s ≤ memSize

theorem memReadBytes_spriteRows {n : Nat} {s : State} (h : RowsInRange n s) :
    memReadBytes (dataAddr 0 s) n s = .ok (spriteRows n s) := by
  obtain rfl | hin := h
  · rfl
  · exact memReadBytes_ok n (dataAddr 0 s) s hin

theorem exec_drw_of_in_range {x y : RegIdx} {n : Fin 16} {s : State} (h : RowsInRange n.val s) :
    exec (.drw x y n) s = .next (drawSprite (readReg x s).toNat (readReg y s).toNat n.val s) :=
  orRaise_eq_next.2 ⟨_, memReadBytes_spriteRows h, rfl⟩

theorem exec_drw_of_out_of_range {x y : RegIdx} {n : Fin 16} {s : State} (hn : n.val ≠ 0)
    (h : memSize < dataAddr n.val s) : exec (.drw x y n) s = .fault (.outOfRange (max s.i.toNat memSize)) := by
  rw [exec, execDrw, memReadBytes_fault _ (dataAddr 0 s) s h (Nat.pos_of_ne_zero hn)]
  rfl

theorem exec_drw_next {x y : RegIdx} {n : Fin 16} {s t : State} (h : exec (.drw x y n) s = .next t) :
    RowsInRange n.val s ∧ t = drawSprite (readReg x s).toNat (readReg y s).toNat n.val s := by
  have hin : RowsInRange n.val s := by
    by_contra hout
    obtain ⟨hn, hrange⟩ := not_or.1 hout
    rw [exec_drw_of_out_of_range hn (Nat.lt_of_not_le hrange)] at h
    cases h
  exact ⟨hin, Host.Outcome.next.inj (h.symm.trans (exec_drw_of_in_range hin))⟩

/-! What a draw does to the pixels and to `VF`. -/

/-- Places that wrap alike read alike, so the 64 by 32 pixels are the whole display. -/
theorem pixelAt_eq_of_wrapped {s t : State} (h : ∀ c r, c < 64 → r < 32 → pixelAt c r t = pixelAt c r s) (c r : Nat) :
    pixelAt c r t = pixelAt c r s := by
  rw [← pixelAt_mod c r t, ← pixelAt_mod c r s]
  exact h _ _ (Nat.mod_lt c (by decide)) (Nat.mod_lt r (by decide))

theorem Covered.lt {s : State} {vx vy n c r : Nat} (h : Covered s vx vy n c r) : c < 64 ∧ r < 32 := by
  obtain ⟨row, col, -, -, -, rfl, rfl⟩ := h
  exact ⟨Nat.mod_lt _ (by decide), Nat.mod_lt _ (by decide)⟩

/-- The sprite's bytes and the residues of its coordinates decide what it covers. -/
theorem covered_congr {s u : State} {vx vy wx wy : Nat} (hmem : ∀ a, byteAt a u = byteAt a s) (hi : u.i = s.i)
    (hx : wx % 64 = vx % 64) (hy : wy % 32 = vy % 32) (n c r : Nat) :
    Covered u wx wy n c r ↔ Covered s vx vy n c r := by
  simp only [Covered, hmem, hi, Nat.add_mod wx, Nat.add_mod wy, hx, hy, ← Nat.add_mod vx, ← Nat.add_mod vy]

/-- The sprite hits a pixel that is on. -/
def Collides (s : State) (vx vy n : Nat) : Prop := ∃ c r, Covered s vx vy n c r ∧ pixelAt c r s = true

section
variable {vx vy : Nat} {n : Fin 16} {s : State}

/-- No pixel of a draw is toggled twice (R201 (b)). -/
theorem spritePixels_spriteRows_pairwise (vx vy : Nat) (n : Fin 16) (s : State) :
    (spritePixels vx vy (spriteRows n.val s)).Pairwise (fun p q => ¬ SamePlace p q) := by
  refine spritePixels_pairwise _ vx vy ?_
  rw [spriteRows, List.length_map, List.length_range]
  omega

theorem pixelAt_drawSprite_of_covered {c r : Nat} (h : Covered s vx vy n.val c r) :
    pixelAt c r (drawSprite vx vy n.val s) = !pixelAt c r s :=
  (pixelAt_setPixels _ s c r (spritePixels_spriteRows_pairwise vx vy n s)).1 ((covered_iff h.lt.1 h.lt.2).1 h)

theorem pixelAt_drawSprite_of_not_covered {c r : Nat} (hc : c < 64) (hr : r < 32) (h : ¬ Covered s vx vy n.val c r) :
    pixelAt c r (drawSprite vx vy n.val s) = pixelAt c r s :=
  (pixelAt_setPixels _ s c r (spritePixels_spriteRows_pairwise vx vy n s)).2 (mt (covered_iff hc hr).2 h)

theorem flag_drawSprite [Decidable (Collides s vx vy n.val)] :
    readReg flagReg (drawSprite vx vy n.val s) = flagByte (decide (Collides s vx vy n.val)) := by
  have hhit : (setPixels (spritePixels vx vy (spriteRows n.val s)) s).1 = true ↔ Collides s vx vy n.val :=
    (setPixels_fst _ s (spritePixels_spriteRows_pairwise vx vy n s)).trans (covered_value_iff true).symm
  rw [drawSprite, readReg_flag_writeFlag, Bool.eq_iff_iff.2 (hhit.trans decide_eq_true_iff.symm)]

theorem flag_drawSprite_of_collides (h : Collides s vx vy n.val) :
    readReg flagReg (drawSprite vx vy n.val s) = 1#8 := by
  classical
  rw [flag_drawSprite, decide_eq_true h]
  rfl

theorem flag_drawSprite_of_not_collides (h : ¬ Collides s vx vy n.val) :
    readReg flagReg (drawSprite vx vy n.val s) = 0#8 := by
  classical
  rw [flag_drawSprite, decide_eq_false h]
  rfl

end

/-- Settles O41: the places of the sprite are distinct, so each is flipped once and answers as it was before the draw. -/
theorem drawFlipsExactlyTheCoveredPixels : Obligations.DrawFlipsExactlyTheCoveredPixels := by
  unfold Obligations.DrawFlipsExactlyTheCoveredPixels
  refine fun x y n s => ⟨spelledAs_rowOf (.drw x y n), fun hin => ?_, exec_drw_of_out_of_range⟩
  have hdraw := exec_drw_of_in_range (x := x) (y := y) hin
  exact ⟨_, hdraw, fun c r _ _ => pixelAt_drawSprite_of_covered, fun c r => pixelAt_drawSprite_of_not_covered,
    flag_drawSprite_of_collides, flag_drawSprite_of_not_collides, exec_regsKeptBut (.drw x y n) s _ hdraw,
    exec_onlyChanges (.drw x y n) s _ hdraw⟩

/-! The requests of a draw (R201, R203). -/

theorem spritePixels_map_range (f : Nat → Byte) (vx n : Nat) : ∀ vy : Nat, spritePixels vx vy ((List.range n).map f) =
    (List.range n).flatMap (fun row => rowPixels vx (vy + row) (f row)) := by
  induction n generalizing f with
  | zero => exact fun _ => rfl
  | succ n ih =>
    intro vy
    have hrest := ih (fun row => f (row + 1)) (vy + 1)
    simp only [Nat.add_right_comm vy 1] at hrest
    simp only [List.range_succ_eq_map, List.map_cons, List.map_map, List.flatMap_cons, List.flatMap_map, spritePixels]
    exact congrArg (rowPixels vx vy (f 0) ++ ·) hrest

/-- Settles O42: the request list of the toggles, with the sprite's places written row by row. -/
theorem drawRequestsEachPixelInOrder : Obligations.DrawRequestsEachPixelInOrder := by
  unfold Obligations.DrawRequestsEachPixelInOrder
  intro x y n s t h
  obtain ⟨-, rfl⟩ := exec_drw_next h
  refine (setPixels_requests _ s).trans ?_
  rw [spriteRows, spritePixels_map_range, List.map_flatMap]
  simp only [rowPixels, List.map_map]
  rfl

/-! Draws at coordinates that wrap alike (R204). -/

/-- Settles O43: the two draws cover the same pixels, and the same of these are on. -/
theorem drawWrapsAtTheEdges : Obligations.DrawWrapsAtTheEdges := by
  unfold Obligations.DrawWrapsAtTheEdges
  intro x y n s u t w hmem hfb hi hx hy hs hu
  obtain ⟨-, rfl⟩ := exec_drw_next hs
  obtain ⟨-, rfl⟩ := exec_drw_next hu
  have hcov := covered_congr hmem hi hx hy n.val
  refine ⟨pixelAt_eq_of_wrapped fun c r hc hr => ?_, ?_⟩
  · by_cases h : Covered s (readReg x s).toNat (readReg y s).toNat n.val c r
    · rw [pixelAt_drawSprite_of_covered h, pixelAt_drawSprite_of_covered ((hcov c r).2 h), hfb]
    · rw [pixelAt_drawSprite_of_not_covered hc hr h, pixelAt_drawSprite_of_not_covered hc hr (mt (hcov c r).1 h), hfb]
  · have hhit : Collides u (readReg x u).toNat (readReg y u).toNat n.val ↔
        Collides s (readReg x s).toNat (readReg y s).toNat n.val := by simp only [Collides, hcov, hfb]
    classical
    rw [flag_drawSprite, flag_drawSprite, decide_eq_decide.2 hhit]

/-! The second draw (R201 (c)). -/

theorem onlyChanges_drawSprite (vx vy n : Nat) (s : State) :
    OnlyChanges [.v, .fb, .requests] s (drawSprite vx vy n s) :=
  (onlyChanges_setPixels _ s).andThen (onlyChanges_writeReg flagReg _ _)

theorem rowsInRange_drawSprite (s : State) (vx vy n : Nat) :
    RowsInRange n (drawSprite vx vy n s) ↔ RowsInRange n s := by
  rw [RowsInRange, RowsInRange, dataAddr, dataAddr, onlyChanges_drawSprite vx vy n s .i (by decide)]

/-- A draw keeps memory and `I`, so the same draw again covers the same pixels. -/
theorem covered_drawSprite (s : State) (vx vy n c r : Nat) :
    Covered (drawSprite vx vy n s) vx vy n c r ↔ Covered s vx vy n c r :=
  have hkeep := onlyChanges_drawSprite vx vy n s
  covered_congr (hkeep .mem (by decide)) (hkeep .i (by decide)) rfl rfl n c r

theorem collides_drawSprite (s : State) (vx vy : Nat) (n : Fin 16) : Collides (drawSprite vx vy n.val s) vx vy n.val ↔
    ∃ c r, Covered s vx vy n.val c r ∧ pixelAt c r s = false := by
  refine exists₂_congr fun c r => ?_
  rw [covered_drawSprite]
  exact and_congr_right fun hc => by rw [pixelAt_drawSprite_of_covered hc, Bool.not_eq_true']

theorem pixelAt_drawSprite_twice (s : State) (vx vy : Nat) (n : Fin 16) :
    ∀ c r, pixelAt c r (drawSprite vx vy n.val (drawSprite vx vy n.val s)) = pixelAt c r s := by
  refine pixelAt_eq_of_wrapped fun c r hc hr => ?_
  have hagain := covered_drawSprite s vx vy n.val c r
  by_cases h : Covered s vx vy n.val c r
  · rw [pixelAt_drawSprite_of_covered (hagain.2 h), pixelAt_drawSprite_of_covered h, Bool.not_not]
  · rw [pixelAt_drawSprite_of_not_covered hc hr (mt hagain.1 h), pixelAt_drawSprite_of_not_covered hc hr h]

/-- Settles O44: the first draw keeps both coordinates and the range of the rows, so the second is the same draw. -/
theorem drawTwiceRestoresTheDisplay : Obligations.DrawTwiceRestoresTheDisplay := by
  unfold Obligations.DrawTwiceRestoresTheDisplay
  intro x y n s t hx hy h
  have hregs := exec_regsKeptBut (.drw x y n) s t h
  have hvx : readReg x t = readReg x s := hregs x (by simpa [regsWritten] using hx)
  have hvy : readReg y t = readReg y s := hregs y (by simpa [regsWritten] using hy)
  obtain ⟨hin, rfl⟩ := exec_drw_next h
  have hrange := (rowsInRange_drawSprite s (readReg x s).toNat (readReg y s).toNat n.val).2 hin
  have hsecond := exec_drw_of_in_range (x := x) (y := y) hrange
  rw [hvx, hvy] at hsecond
  have hhit := collides_drawSprite s (readReg x s).toNat (readReg y s).toNat n
  exact ⟨_, hsecond, pixelAt_drawSprite_twice s _ _ n,
    fun hoff => flag_drawSprite_of_collides (hhit.2 hoff),
    fun hoff => flag_drawSprite_of_not_collides (mt hhit.1 hoff)⟩

end Sys2Proof.Machine
end

section
/-! PROOFS. Keypad and timers (45_keypad_timers.md R210 to R215): the keypad's answer and the skip it decides (decision D13),
the latched wait, the moves between a register and a timer. -/

namespace Sys2Proof.Machine

/-! The keypad (R210, R211; 46_external_interfaces.md R235). -/

/-- A code of the keypad is answered with the level of its key. -/
theorem keyReply_of_lt {code : Byte} {inp : TickInput} (h : code.toNat < 16) :
    keyReply code inp = inp.keysDown[code.toNat] := dif_pos h

/-- A code above the keypad's is answered freely (decision D13, log 3). -/
theorem keyReply_of_ge {code : Byte} {inp : TickInput} (h : 16 ≤ code.toNat) :
    keyReply code inp = inp.replyAbove15 := dif_neg h.not_gt

theorem exec_skp (x : RegIdx) (s : State) : exec (.skp x) s =
    .next (skipIf (keyReply (readReg x s) (currentInput s)) (addRequest (.isPressed (readReg x s)) s)) := rfl

theorem exec_sknp (x : RegIdx) (s : State) : exec (.sknp x) s =
    .next (skipIf (!keyReply (readReg x s) (currentInput s)) (addRequest (.isPressed (readReg x s)) s)) := rfl

theorem skipIf_not_pc (c : Bool) (s : State) : (skipIf (!c) s).pc = if c then s.pc else s.pc + 2 := by
  cases c <;> rfl

/-- A query and the skip on its answer touch the request record and `pc` alone. -/
theorem onlyChanges_skipIf_addRequest (c : Bool) (q : PortRequest) (s : State) :
    OnlyChanges [.pc, .requests] s (skipIf c (addRequest q s)) :=
  (onlyChanges_addRequest q s).andThen (onlyChanges_skipIf c _)

/-- Settles O45: both ask for the whole register, and one skips on the answer where the other skips on its negation. -/
theorem keySkips : Obligations.KeySkips := by
  unfold Obligations.KeySkips
  exact fun x s => ⟨spelledAs_rowOf (.skp x), spelledAs_rowOf (.sknp x),
    keyReply (readReg x s) (currentInput s), keyReply_of_lt, keyReply_of_ge,
    ⟨_, exec_skp x s, skipIf_pc _ _, skipIf_requests _ _, onlyChanges_skipIf_addRequest _ _ s⟩,
    ⟨_, exec_sknp x s, skipIf_not_pc _ _, skipIf_requests _ _, onlyChanges_skipIf_addRequest _ _ s⟩⟩

/-! The key wait (R212; 10_state.md R37, R38). -/

/-- Settles O46: the two latches are all that `Fx0A` writes; the register waits for the event. -/
theorem keyWaitPauses : Obligations.KeyWaitPauses := by
  unfold Obligations.KeyWaitPauses
  exact fun x s => ⟨spelledAs_rowOf (.ldVxK x), _, rfl, rfl, rfl,
    (onlyChanges_setKwx x s).andThen (onlyChanges_setPaused true _)⟩

/-! The timers (R213 to R215). -/

/-- Settles O47: each move is one write, of a register or of a timer. -/
theorem timerMoves : Obligations.TimerMoves := by
  unfold Obligations.TimerMoves
  exact fun x s => ⟨spelledAs_rowOf (.ldVxDT x), spelledAs_rowOf (.ldDTVx x), spelledAs_rowOf (.ldSTVx x),
    ⟨_, rfl, readReg_writeReg_same x s.dt s, regsKeptBut_writeReg x _ s, onlyChanges_writeReg x _ s⟩,
    ⟨_, rfl, rfl, onlyChanges_setDt _ s⟩, ⟨_, rfl, rfl, onlyChanges_setSt _ s⟩⟩

end Sys2Proof.Machine
end

section
/-! PROOFS. The host port (46_external_interfaces.md R236, R240, R243): the events between two ticks, the load of a program,
and the debug accessors between frames and inside one. -/

namespace Sys2Proof.Machine

/-! Key-press events in turn (R236). -/

theorem Running.not_waiting {s : State} (h : Running s) : ¬ Waiting s :=
  fun hw => Bool.false_ne_true (h.2.symm.trans hw.2)

theorem foldl_keyPress_of_not_waiting {s : State} (h : ¬ Waiting s) (ks : List KeyCode) :
    ks.foldl (fun u k => keyPress k u) s = s := by
  induction ks with
  | nil => rfl
  | cons k ks ih => rw [List.foldl_cons, keyPress_of_not_waiting h k, ih]

/-- Settles O15: the first event leaves a waiting core running, and a core that does not wait drops them all. -/
theorem keyPressesAreDeliveredInTurn : Obligations.KeyPressesAreDeliveredInTurn := by
  unfold Obligations.KeyPressesAreDeliveredInTurn
  intro ks s
  by_cases hw : Waiting s
  · cases ks with
    | nil => exact deliverKeys_nil s
    | cons k ks =>
      rw [deliverKeys_cons_of_waiting hw, List.foldl_cons,
        foldl_keyPress_of_not_waiting (running_keyPress hw k).not_waiting]
  · rw [deliverKeys_of_not_waiting hw, foldl_keyPress_of_not_waiting hw]

/-! The load of a program (R240, 60_exceptions.md R264). -/

theorem loadProgram_of_started {s : State} (h : s.frameStarted = true) (bytes : List Byte) :
    loadProgram bytes s = .refused .loadOutsideBoot := by
  simp [loadProgram, h]

section
variable {s : State} {bytes : List Byte}

theorem loadProgram_of_fits (h : s.frameStarted = false) (hfits : 0x200 + bytes.length ≤ 4096) :
    loadProgram bytes s = .done (setMem (placeBytes s.config.font 0x200 bytes s.mem) s) := by
  simp [loadProgram, h, imageFits, hfits, resetVector]

theorem loadProgram_of_too_large (h : s.frameStarted = false) (hlarge : 4096 < 0x200 + bytes.length) :
    loadProgram bytes s = .reported (.programTooLarge bytes.length) s := by
  simp [loadProgram, h, imageFits, hlarge]

end

theorem byteAt_setMem_placeBytes_inside (a : Nat) {bs : List Byte} (s : State) {k : Nat} (hk : k < bs.length) :
    byteAt (a + k) (setMem (placeBytes s.config.font a bs s.mem) s) = bs[k] := by
  simp [byteAt, placeBytes_read, hk]

theorem byteAt_setMem_placeBytes_outside {a c : Nat} {bs : List Byte} (s : State) (hc : c < a ∨ a + bs.length ≤ c) :
    byteAt c (setMem (placeBytes s.config.font a bs s.mem) s) = byteAt c s := by
  rw [byteAt, setMem_config, setMem_mem, placeBytes_read, dif_neg (by omega), byteAt]

/-- Settles O50: the three answers of the command, and what the bytes placed change of memory. -/
theorem loadProgramCopiesTheImage : Obligations.LoadProgramCopiesTheImage := by
  unfold Obligations.LoadProgramCopiesTheImage
  refine fun bytes s => ⟨fun h hfits => ⟨_, loadProgram_of_fits h hfits, ?_, ?_, ?_, ?_⟩,
    loadProgram_of_too_large, fun h => loadProgram_of_started h bytes⟩
  · exact fun k hk => byteAt_setMem_placeBytes_inside 0x200 s hk
  · exact fun a ha => byteAt_setMem_placeBytes_outside s ha
  · exact onlyChanges_setMem _ s
  · exact fun hwf => placeBytes_wf bytes 0x200 s.mem hwf hfits

/-! The register accessors (R243, 60_exceptions.md R265). -/

section
variable {s : State}

theorem hostGetReg_natCast (h : s.midFrame = false) (x : RegIdx) : hostGetReg x.val s = .value (readReg x s) := by
  have hx : 0 ≤ (x.val : Int) ∧ (x.val : Int) < 16 := by omega
  rw [hostGetReg, betweenFrames_of_idle h, dif_pos hx]
  rfl

theorem hostSetReg_natCast (h : s.midFrame = false) (x : RegIdx) (b : Byte) :
    hostSetReg x.val b s = .done (writeReg x b s) := by
  have hx : 0 ≤ (x.val : Int) ∧ (x.val : Int) < 16 := by omega
  rw [hostSetReg, betweenFramesDo_of_idle h, dif_pos hx]
  rfl

theorem hostGetReg_of_out_of_range (h : s.midFrame = false) {idx : Int} (hidx : idx < 0 ∨ 16 ≤ idx) :
    hostGetReg idx s = .reported (.invalidRegister idx) := by
  rw [hostGetReg, betweenFrames_of_idle h, dif_neg (by omega)]

theorem hostSetReg_of_out_of_range (h : s.midFrame = false) {idx : Int} (hidx : idx < 0 ∨ 16 ≤ idx) (b : Byte) :
    hostSetReg idx b s = .reported (.invalidRegister idx) s := by
  rw [hostSetReg, betweenFramesDo_of_idle h, dif_neg (by omega)]

end

/-- Settles O51: an index in range is a register's own; a write of a register keeps the core between frames. -/
theorem registerAccessorsCheckTheIndex : Obligations.RegisterAccessorsCheckTheIndex := by
  unfold Obligations.RegisterAccessorsCheckTheIndex
  refine fun idx b s => ⟨?_, fun h hidx => ⟨hostGetReg_of_out_of_range h hidx, hostSetReg_of_out_of_range h hidx b⟩,
    fun h => ⟨betweenFrames_of_midFrame h _, betweenFramesDo_of_midFrame h _⟩⟩
  rintro h x rfl
  have hget : hostGetReg x.val (writeReg x b s) = .value b := by
    rw [hostGetReg_natCast (s := writeReg x b s) h, readReg_writeReg_same]
  exact ⟨hostGetReg_natCast h x, _, hostSetReg_natCast h x b, hget, regsKeptBut_writeReg x b s,
    onlyChanges_writeReg x b s⟩

/-! The memory accessors (R243, 20_memory.md R61, R62, R71), beside those inside memory of Sys2Proof/Laws/HostPort.lean. -/

section
variable {s : State}

theorem hostRead_natCast_of_ge (h : s.midFrame = false) {n : Nat} (hn : memSize ≤ n) :
    hostRead n s = .reported (.outOfRange n) := by
  simp only [hostRead, betweenFrames_of_idle h, memRead_of_ge hn]

theorem hostWrite_natCast_of_ge (h : s.midFrame = false) {n : Nat} (hn : memSize ≤ n) (b : Byte) :
    hostWrite n b s = .reported (.outOfRange n) s := by
  simp only [hostWrite, betweenFramesDo_of_idle h, memWrite_of_ge b hn]

theorem hostRead_of_neg (h : s.midFrame = false) {a : Int} (ha : a < 0) :
    hostRead a s = .reported (.outOfRangeBelowZero a) := by
  obtain ⟨n, rfl⟩ := Int.eq_negSucc_of_lt_zero ha
  exact betweenFrames_of_idle h _

theorem hostWrite_of_neg (h : s.midFrame = false) {a : Int} (ha : a < 0) (b : Byte) :
    hostWrite a b s = .reported (.outOfRangeBelowZero a) s := by
  obtain ⟨n, rfl⟩ := Int.eq_negSucc_of_lt_zero ha
  exact betweenFramesDo_of_idle h _

end

/-- Settles O58: an address in range is a cell's own; a store of a byte keeps the core between frames. -/
theorem memoryAccessorsCheckTheAddress : Obligations.MemoryAccessorsCheckTheAddress := by
  unfold Obligations.MemoryAccessorsCheckTheAddress
  refine fun a b s => ⟨?_, ?_, fun h ha => ⟨hostRead_of_neg h ha, hostWrite_of_neg h ha b⟩,
    fun h => ⟨betweenFrames_of_midFrame h _, betweenFramesDo_of_midFrame h _⟩⟩
  · rintro h n hn rfl
    refine ⟨hostRead_natCast h hn, _, hostWrite_natCast h hn b, ?_, fun c hc => ?_, onlyChanges_setMem _ s⟩
    · rw [hostRead_natCast (s := setMem (storeByte s.config.font n b s.mem) s) h hn,
        byteAt_setMem_storeByte, if_pos rfl]
    · rw [byteAt_setMem_storeByte, if_neg hc]
  · rintro h n hn rfl
    exact ⟨hostRead_natCast_of_ge h hn, hostWrite_natCast_of_ge h hn b⟩

/-! The timer accessors (R243). -/

/-- A tick of a core that is not halted leaves its frame in progress. -/
theorem midFrame_of_step {s t : State} (hf : s.fault = none) (h : step s = .next t) : t.midFrame = true := by
  rw [step_of_no_fault hf] at h
  obtain ⟨u, -, rfl⟩ := thenNext_eq_next.1 h
  rfl

/-- Settles O59: each accessor is one read or one write behind the test of the frame. -/
theorem timerAccessorsActBetweenFrames : Obligations.TimerAccessorsActBetweenFrames := by
  unfold Obligations.TimerAccessorsActBetweenFrames
  refine fun b s => ⟨fun h => ⟨betweenFrames_of_idle h _, ?_, ?_⟩, fun h => ⟨betweenFrames_of_midFrame h _,
    betweenFramesDo_of_midFrame h _, betweenFramesDo_of_midFrame h _⟩, fun t hf h => ?_⟩
  · exact ⟨_, betweenFramesDo_of_idle h _, rfl, onlyChanges_setDt b s⟩
  · exact ⟨_, betweenFramesDo_of_idle h _, rfl, onlyChanges_setSt b s⟩
  · exact betweenFrames_of_midFrame (midFrame_of_step hf h) _

end Sys2Proof.Machine
end

section
/-! PROOFS. Exceptions (60_exceptions.md R260 to R275): where an instruction faults, which faults a step raises, and the timer
step of a completed tick. -/

namespace Sys2Proof.Machine

/-! Outcomes of the execute phase: the faults it raises (R261, R262, R266). -/

/-- The outcome is a fault exactly where `R` raises one, never a refusal, and a next state where `R` raises none. -/
def FaultsExactly (R : Fault → Prop) (o : Result) : Prop :=
  (∀ f, o = .fault f ↔ R f) ∧ (∀ r, o ≠ .refused r) ∧ ((∀ f, ¬ R f) → ∃ t, o = .next t)

section

variable {R : Fault → Prop} {o : Result}

theorem faultsExactly_next {t : State} (hR : ∀ f, ¬ R f) : FaultsExactly R (.next t) :=
  ⟨fun f => iff_of_false nofun (hR f), nofun, fun _ => ⟨t, rfl⟩⟩

theorem faultsExactly_fault {g : Fault} (hR : ∀ f, R f ↔ f = g) : FaultsExactly R (.fault g) :=
  ⟨fun f => by rw [hR f, Host.Outcome.fault.injEq, eq_comm], nofun, fun hnone => absurd ((hR g).2 rfl) (hnone g)⟩

/-- An outcome that is the fault `g` under a condition and a next state otherwise. -/
theorem faultsExactly_of_condition {p : Prop} {g : Fault} (hR : ∀ f, R f ↔ p ∧ f = g) (hfault : p → o = .fault g)
    (hnext : ¬ p → ∃ t, o = .next t) : FaultsExactly R o := by
  by_cases hp : p
  · rw [hfault hp]
    exact faultsExactly_fault fun f => (hR f).trans (and_iff_right hp)
  · obtain ⟨t, ht⟩ := hnext hp
    rw [ht]
    exact faultsExactly_next fun f hf => hp ((hR f).1 hf).1

end

theorem exec_ret_of_ne_nil {s : State} (h : s.stack ≠ []) : ∃ t, exec .ret s = .next t := by
  obtain ⟨a, rest, hcons⟩ := List.exists_cons_of_ne_nil h
  exact ⟨_, exec_ret_of_cons hcons⟩

/-- Six instructions can fault, each under one condition; the others complete in every state. -/
theorem exec_faultsExactly (i : Instr) (s : State) : FaultsExactly (RaisesFault i s) (exec i s) := by
  cases i with
  | ret => exact faultsExactly_of_condition (fun _ => Iff.rfl) exec_ret_of_nil exec_ret_of_ne_nil
  | call => exact faultsExactly_of_condition (fun _ => Iff.rfl) exec_call_of_full fun hroom => ⟨_, exec_call_of_room hroom⟩
  | ldB =>
    exact faultsExactly_of_condition (fun _ => Iff.rfl) (fun hout => exec_ldB_of_out_of_range (Nat.le_of_lt_succ hout))
      fun hin => exec_ldB_of_in_range (Nat.le_of_not_lt hin)
  | stRegs =>
    exact faultsExactly_of_condition (fun _ => Iff.rfl) (fun hout => exec_stRegs_of_out_of_range (Nat.le_of_lt_succ hout))
      fun hin => exec_stRegs_of_in_range (Nat.le_of_not_lt hin)
  | ldRegs =>
    exact faultsExactly_of_condition (fun _ => Iff.rfl) (fun hout => exec_ldRegs_of_out_of_range (Nat.le_of_lt_succ hout))
      fun hin => exec_ldRegs_of_in_range (Nat.le_of_not_lt hin)
  | drw x y n =>
    refine faultsExactly_of_condition (fun _ => and_assoc.symm) (fun ⟨hrows, hout⟩ => ?_) fun hin => ?_
    · exact exec_drw_of_out_of_range (Nat.ne_of_gt hrows) hout
    · have hrange : RowsInRange n.val s := by
        unfold RowsInRange dataAddr
        omega
      exact ⟨_, exec_drw_of_in_range hrange⟩
  | _ => exact faultsExactly_next fun _ => id

/-- Settles O53, by the condition of each instruction that can fault. -/
theorem instructionsFaultExactlyWhereTheRulesSay : Obligations.InstructionsFaultExactlyWhereTheRulesSay := by
  unfold Obligations.InstructionsFaultExactlyWhereTheRulesSay
  exact exec_faultsExactly

/-! The faults of a step (R260, R263 to R265). -/

/-- A fault of the core itself: an address outside memory that fits 16 bits, or one of the three that name no address. -/
def CoreFault (f : Fault) : Prop :=
  (∃ a, f = .outOfRange a ∧ 4096 ≤ a ∧ a ≤ 0xFFFF) ∨ f = .stackUnderflow ∨ (∃ w, f = .unknownOpcode w) ∨
    f = .stackOverflow

/-- The lowest address out of range of a block or a fetch that begins at a 16-bit address (decision D28). -/
theorem coreFault_outOfRange (a : Word) : CoreFault (.outOfRange (max a.toNat memSize)) :=
  .inl ⟨_, rfl, Nat.le_max_right _ _, Nat.max_le.2 ⟨Nat.le_of_lt_succ a.isLt, by decide⟩⟩

theorem RaisesFault.coreFault {i : Instr} {s : State} {f : Fault} (h : RaisesFault i s f) : CoreFault f := by
  cases i with
  | ret => exact .inr (.inl h.2)
  | call => exact .inr (.inr (.inr h.2))
  | ldB | stRegs | ldRegs =>
    obtain ⟨-, rfl⟩ := h
    exact coreFault_outOfRange s.i
  | drw =>
    obtain ⟨-, -, rfl⟩ := h
    exact coreFault_outOfRange s.i
  | _ => exact h.elim

/-- The outcome is never a refusal, and a fault only if it is one of the core's. -/
def RaisesOnlyCoreFaults (o : Result) : Prop := (∀ r, o ≠ .refused r) ∧ ∀ f, o = .fault f → CoreFault f

theorem raisesOnlyCoreFaults_next (s : State) : RaisesOnlyCoreFaults (.next s) := ⟨nofun, nofun⟩

theorem raisesOnlyCoreFaults_fault {f : Fault} (h : CoreFault f) : RaisesOnlyCoreFaults (.fault f) :=
  ⟨nofun, fun _ hf => Host.Outcome.fault.inj hf ▸ h⟩

theorem RaisesOnlyCoreFaults.thenNext {o : Result} (h : RaisesOnlyCoreFaults o) (k : State → State) :
    RaisesOnlyCoreFaults (thenNext o k) :=
  ⟨fun r => mt thenNext_eq_refused.1 (h.1 r), fun f hf => h.2 f (thenNext_eq_fault.1 hf)⟩

theorem exec_raisesOnlyCoreFaults (i : Instr) (s : State) : RaisesOnlyCoreFaults (exec i s) := by
  obtain ⟨hfault, hrefused, -⟩ := exec_faultsExactly i s
  exact ⟨hrefused, fun f hf => ((hfault f).1 hf).coreFault⟩

/-- The fetch faults outside memory, the decoder's rejection is `UnknownOpcode`, and the rest is the execute phase. -/
theorem instructionStep_raisesOnlyCoreFaults (s : State) : RaisesOnlyCoreFaults (instructionStep s) := by
  by_cases hpc : s.pc.toNat + 1 < memSize
  · rw [instructionStep_of_in_range hpc]
    cases hdecode : decodeWord (wordOfBytes (byteAt s.pc.toNat s) (byteAt (s.pc.toNat + 1) s)) with
    | ok i =>
      rw [execWord_of_ok hdecode]
      exact exec_raisesOnlyCoreFaults i _
    | error e =>
      rw [execWord_of_error hdecode]
      exact raisesOnlyCoreFaults_fault (.inr (.inr (.inl ⟨_, rfl⟩)))
  · rw [instructionStep_of_out_of_range (Nat.le_of_not_lt hpc)]
    exact raisesOnlyCoreFaults_fault (coreFault_outOfRange s.pc)

theorem tick_raisesOnlyCoreFaults (s : State) : RaisesOnlyCoreFaults (tick s) := by
  unfold tick
  split
  · exact raisesOnlyCoreFaults_next s
  · split
    · exact raisesOnlyCoreFaults_next _
    · exact (instructionStep_raisesOnlyCoreFaults s).thenNext timerStep

/-- Settles O54: only the instruction step of a tick can stop a step. -/
theorem stepRaisesOnlyTheCoresFaults : Obligations.StepRaisesOnlyTheCoresFaults := by
  unfold Obligations.StepRaisesOnlyTheCoresFaults
  intro s
  cases hf : s.fault with
  | some f =>
    rw [step_of_fault hf]
    exact raisesOnlyCoreFaults_next s
  | none =>
    rw [step_of_no_fault hf]
    exact (tick_raisesOnlyCoreFaults _).thenNext closeTick

/-! The timers of a completed tick (R274, R275; 45_keypad_timers.md R214, R215). -/

theorem dt_mem_partsWritten {i : Instr} : .dt ∈ partsWritten i ↔ ∃ x, i = .ldDTVx x := by
  cases i <;> simp [partsWritten]

theorem st_mem_partsWritten {i : Instr} : .st ∈ partsWritten i ↔ ∃ x, i = .ldSTVx x := by
  cases i <;> simp [partsWritten]

section

variable {i : Instr} {s t : State}

theorem exec_ldDTVx_dt {x : RegIdx} (h : exec (.ldDTVx x) s = .next t) : t.dt = readReg x s := by
  cases h
  rfl

theorem exec_ldSTVx_st {x : RegIdx} (h : exec (.ldSTVx x) s = .next t) : t.st = readReg x s := by
  cases h
  rfl

theorem exec_dt_kept (h : exec i s = .next t) (hi : ∀ x, i ≠ .ldDTVx x) : t.dt = s.dt :=
  exec_onlyChanges i s t h .dt fun hmem => (dt_mem_partsWritten.1 hmem).elim hi

theorem exec_st_kept (h : exec i s = .next t) (hi : ∀ x, i ≠ .ldSTVx x) : t.st = s.st :=
  exec_onlyChanges i s t h .st fun hmem => (st_mem_partsWritten.1 hmem).elim hi

end

theorem endTick_dt_toNat (s : State) : (closeTick (timerStep s)).dt.toNat = s.dt.toNat - 1 := decTimer_toNat s.dt

theorem endTick_st_toNat (s : State) : (closeTick (timerStep s)).st.toNat = s.st.toNat - 1 := decTimer_toNat s.st

/-- Settles O18: the timer step comes after the instruction, so it counts down what the instruction wrote or kept. -/
theorem timersRunDownOnceInEveryTick : Obligations.TimersRunDownOnceInEveryTick := by
  unfold Obligations.TimersRunDownOnceInEveryTick
  intro s t i hr hi hstep
  obtain ⟨j, w, hj, he, rfl⟩ := step_next_of_running hr hstep
  obtain rfl := hi.unique hj
  rw [endTick_dt_toNat, endTick_st_toNat]
  refine ⟨?_, fun hne => ?_, ?_, fun hne => ?_⟩
  · rintro x rfl
    rw [exec_ldDTVx_dt he, readReg_advancePc]
  · rw [exec_dt_kept he hne, advancePc_dt]
  · rintro x rfl
    rw [exec_ldSTVx_st he, readReg_advancePc]
  · rw [exec_st_kept he hne, advancePc_st]

end Sys2Proof.Machine
end

section
/-! PROOFS. The host's reset of a machine in any state (46_external_interfaces.md R239, 70_reset_and_hazards.md R300, R302). -/

namespace Sys2Proof.Machine

/-- A reset puts nothing in memory but the state's own font (20_memory.md R63). -/
theorem byteAt_hostReset (a : Nat) (s : State) : byteAt a (hostReset s) = unlistedByte s.config.font a :=
  byteAt_of_mem_nil (s := hostReset s) rfl a

/-! What a reset keeps (R239): the configuration, the collaborators, the request record and the inputs. -/

section

variable (s : State)

@[simp] theorem hostReset_config : (hostReset s).config = s.config := rfl
@[simp] theorem hostReset_tone : (hostReset s).tone = s.tone := rfl
@[simp] theorem hostReset_requests : (hostReset s).requests = s.requests := rfl
@[simp] theorem hostReset_inputs : (hostReset s).inputs = s.inputs := rfl
@[simp] theorem hostReset_ticks : (hostReset s).ticks = s.ticks := rfl
@[simp] theorem pixelAt_hostReset (c r : Nat) : pixelAt c r (hostReset s) = pixelAt c r s := rfl

theorem onlyChanges_hostReset :
    OnlyChanges [.v, .i, .pc, .dt, .st, .stack, .paused, .kwx, .fault, .mem, .frameStarted, .midFrame]
      s (hostReset s) := by
  intro p hp
  cases p <;> simp [Same] at *

end

/-- Settles O7: outside memory the core items are those of State.reset, whose values O6 states; memory is the state's own
font and zeros, and the parts hostReset copies from the state are those it keeps. -/
theorem hostResetTouchesTheCoreAlone : Obligations.HostResetTouchesTheCoreAlone := by
  unfold Obligations.HostResetTouchesTheCoreAlone
  intro s
  obtain ⟨hv, hi, hpc, hdt, hst, hstack, -, -, hrun, -, -⟩ := resetLeavesTheStatedValues
  refine ⟨hv, hi, hpc, hdt, hst, hstack, hrun, fun a ha => ?_, fun a ha => ?_, onlyChanges_hostReset s⟩
  · rw [byteAt_hostReset, unlistedByte, dif_pos ha]
  · rw [byteAt_hostReset, unlistedByte, dif_neg (Nat.not_lt.2 ha)]

end Sys2Proof.Machine
end
